-- ==== Sys2Proof/Word.lean ====
section
/-! DEFINITION. The two word types of the core (rule R6): no value in it is signed, and bit 0 is the
least significant bit. -/

namespace Sys2Proof

/-- A byte, 0..255: the unit of the command stream, the response stream and the message (R6, R31). -/
abbrev Byte := BitVec 8

/-- A word, 0..2^32 - 1: a state word, a message word, a working variable or a constant (R6).
`+` on it is addition mod 2^32 with no carry kept (R7, R80). -/
abbrev Word := BitVec 32

end Sys2Proof
end

