-- ==== Sys2Proof/Machine/Operands.lean ====
section
/-! DEFINITION. The word primitives of the spec's notation: shift, rotation and the big-endian
conversions between bytes and 32-bit words (rules R8 and R9). The 64-bit conversions stand in
Decode.lean, which needs them first. -/

namespace Sys2Proof.Machine

/-- SHR(x, n), a logical right shift (R8; used with 0 < n < 32 only). -/
def shr (x : Word) (n : Nat) : Word := x >>> n

/-- ROTR(x, n), a right rotation (R8; used with 0 < n < 32 only). -/
def rotr (x : Word) (n : Nat) : Word := (x >>> n) ||| (x <<< (32 - n))

/-- BE32 of four bytes, the first the most significant (R9, R26): the rule's weighted sum, by Horner's
scheme. -/
def be32 (b0 b1 b2 b3 : Byte) : Word :=
  BitVec.ofNat 32 (((b0.toNat * 256 + b1.toNat) * 256 + b2.toNat) * 256 + b3.toNat)

/-- BYTES32(w), the most significant byte first (R9, R28). -/
def bytes32 (w : Word) : List Byte :=
  [w.extractLsb' 24 8, w.extractLsb' 16 8, w.extractLsb' 8 8, w.extractLsb' 0 8]

end Sys2Proof.Machine
end

