-- ==== Sys2Proof/Machine/Compression.lean ====
section
/-! DEFINITION. The compression function: the constants, the bit functions, the message schedule, the
round and COMPRESS itself (rules R66 to R80). It is pure; W[0..63], a..h, T1 and T2 are values inside
it and no state of the core (R19). The spec takes the constants and the bit functions from the SHA-256
standard (log entry 11). -/

namespace Sys2Proof.Machine

/-- IV, the initial value of H[0..7] (R66). -/
def iv : Vector Word 8 :=
  #v[0x6a09e667, 0xbb67ae85, 0x3c6ef372, 0xa54ff53a,
     0x510e527f, 0x9b05688c, 0x1f83d9ab, 0x5be0cd19]

/-- The round constants K[0..63], eight to a line as rule R67 lists them. -/
def roundConstants : List Word :=
  [0x428a2f98, 0x71374491, 0xb5c0fbcf, 0xe9b5dba5,
   0x3956c25b, 0x59f111f1, 0x923f82a4, 0xab1c5ed5] ++
  [0xd807aa98, 0x12835b01, 0x243185be, 0x550c7dc3,
   0x72be5d74, 0x80deb1fe, 0x9bdc06a7, 0xc19bf174] ++
  [0xe49b69c1, 0xefbe4786, 0x0fc19dc6, 0x240ca1cc,
   0x2de92c6f, 0x4a7484aa, 0x5cb0a9dc, 0x76f988da] ++
  [0x983e5152, 0xa831c66d, 0xb00327c8, 0xbf597fc7,
   0xc6e00bf3, 0xd5a79147, 0x06ca6351, 0x14292967] ++
  [0x27b70a85, 0x2e1b2138, 0x4d2c6dfc, 0x53380d13,
   0x650a7354, 0x766a0abb, 0x81c2c92e, 0x92722c85] ++
  [0xa2bfe8a1, 0xa81a664b, 0xc24b8b70, 0xc76c51a3,
   0xd192e819, 0xd6990624, 0xf40e3585, 0x106aa070] ++
  [0x19a4c116, 0x1e376c08, 0x2748774c, 0x34b0bcb5,
   0x391c0cb3, 0x4ed8aa4a, 0x5b9cca4f, 0x682e6ff3] ++
  [0x748f82ee, 0x78a5636f, 0x84c87814, 0x8cc70208,
   0x90befffa, 0xa4506ceb, 0xbef9a3f7, 0xc67178f2]

/-- K[t] (R67); `t` is below 64 wherever it is used. -/
def roundConstant (t : Nat) : Word := roundConstants.getD t 0

/-- ssig0, the source's σ0 (R68). -/
def ssig0 (x : Word) : Word := rotr x 7 ^^^ rotr x 18 ^^^ shr x 3

/-- ssig1, the source's σ1 (R69). -/
def ssig1 (x : Word) : Word := rotr x 17 ^^^ rotr x 19 ^^^ shr x 10

/-- bsig0, the source's Σ0 (R70). -/
def bsig0 (x : Word) : Word := rotr x 2 ^^^ rotr x 13 ^^^ rotr x 22

/-- bsig1, the source's Σ1 (R71). -/
def bsig1 (x : Word) : Word := rotr x 6 ^^^ rotr x 11 ^^^ rotr x 25

/-- Ch, choose: each bit of `e` picks the bit of `f` or of `g` (R72). -/
def ch (e f g : Word) : Word := (e &&& f) ^^^ (~~~e &&& g)

/-- Maj, the bitwise majority (R73). -/
def maj (a b c : Word) : Word := (a &&& b) ^^^ (a &&& c) ^^^ (b &&& c)

/-- Step 1: message word W[j] of a block, j < 16 (R74, R26). -/
def messageWord (block : List Byte) (j : Nat) : Word :=
  be32 (block.getD (4 * j) 0) (block.getD (4 * j + 1) 0) (block.getD (4 * j + 2) 0)
    (block.getD (4 * j + 3) 0)

/-- Step 2, one expansion: the word W[t] that follows the words W[0..t-1] already written (R75). -/
def nextScheduleWord (w : List Word) : Word :=
  let t := w.length
  ssig1 (w.getD (t - 2) 0) + w.getD (t - 7) 0 + ssig0 (w.getD (t - 15) 0) + w.getD (t - 16) 0

/-- `n` expansions in increasing t. -/
def expandSchedule : Nat → List Word → List Word
  | 0, w => w
  | n + 1, w => expandSchedule n (w ++ [nextScheduleWord w])

/-- The message schedule W[0..63] of a block: 16 message words, then 48 expansions (R74, R75). -/
def schedule (block : List Byte) : List Word :=
  expandSchedule 48 ((List.range 16).map (messageWord block))

/-- The working variables a..h of COMPRESS; transient, no state of the core (R19, R76). -/
structure Vars where
  a : Word
  b : Word
  c : Word
  d : Word
  e : Word
  f : Word
  g : Word
  h : Word
deriving DecidableEq, Repr

/-- Step 3: the working variables before round 0 (R76). -/
def initVars (h : Vector Word 8) : Vars :=
  ⟨h[0], h[1], h[2], h[3], h[4], h[5], h[6], h[7]⟩

/-- Step 4: one round with constant K[t] = `k` and schedule word W[t] = `w`; the eight assignments are
simultaneous (R77). -/
def round (v : Vars) (k w : Word) : Vars :=
  let t1 := v.h + bsig1 v.e + ch v.e v.f v.g + k + w
  let t2 := bsig0 v.a + maj v.a v.b v.c
  { h := v.g, g := v.f, f := v.e, e := v.d + t1, d := v.c, c := v.b, b := v.a, a := t1 + t2 }

/-- The rounds t = 0, ..., n-1 in order (R77). -/
def rounds (w : List Word) (n : Nat) (v : Vars) : Vars :=
  (List.range n).foldl (fun v t => round v (roundConstant t) (w.getD t 0)) v

/-- Step 5: the feed-forward (R78). -/
def feedForward (h : Vector Word 8) (v : Vars) : Vector Word 8 :=
  #v[h[0] + v.a, h[1] + v.b, h[2] + v.c, h[3] + v.d, h[4] + v.e, h[5] + v.f, h[6] + v.g, h[7] + v.h]

/-- COMPRESS(H, B) for a 64-byte block B (R79). -/
def compress (h : Vector Word 8) (block : List Byte) : Vector Word 8 :=
  feedForward h (rounds (schedule block) 64 (initVars h))

end Sys2Proof.Machine
end

