-- ==== Sys2Proof/Machine/State.lean ====
section
/-! DEFINITION. The state of the core (rules R13 to R23, R45, R98), what the outside delivers to it, the
answers it can give, and the reasons a step could stop for. -/

namespace Sys2Proof.Machine

/-- LIFECYCLE, a 2-bit field with four legal values (R17). -/
inductive Lifecycle where
  /-- 0: no context exists; the state after a reset. -/
  | uninit
  /-- 1: INIT has run and no UPDATE since. -/
  | init
  /-- 2: at least one successful UPDATE since INIT. -/
  | updating
  /-- 3: FINAL has run; terminal but for INIT and a reset. -/
  | finalized
deriving DecidableEq, Repr

/-- The Digest Context, all that persists between commands (R13). -/
structure Context where
  /-- H[0..7], the chaining value (R14). -/
  h : Vector Word 8
  /-- BUF[0..63]; only the first `bufLen` bytes are valid (R16, log entry 6). -/
  buf : Vector Byte 64
  /-- BUF_LEN, 0..63 (R16). -/
  bufLen : Fin 64
  /-- TOTAL_LEN, the message bytes absorbed since INIT (R18). -/
  totalLen : BitVec 64
  /-- LIFECYCLE (R17). -/
  lifecycle : Lifecycle
deriving DecidableEq, Repr

/-- What the outside can do to the core: deliver the next byte of the command stream (R24, R38), or
reset it (R98, R99). Nothing else reaches it (R94, R96, R97). -/
inductive Input where
  /-- The next byte of the command stream. -/
  | byte (b : Byte)
  /-- A hardware reset while no command is being performed: at an opcode boundary, or while a command is
  being received (R98, R99). -/
  | reset
  /-- A hardware reset while the command completed by the byte before it is being performed (R99); where
  no command is, it acts as `reset`. -/
  | resetBusy
deriving DecidableEq, Repr

/-- The five error causes (R83). -/
inductive ErrorCode where
  /-- Code 1: UPDATE or FINAL before any INIT (R85). -/
  | notInitialized
  /-- Code 2: UPDATE in FINALIZED (R86). -/
  | updateAfterFinal
  /-- Code 3: FINAL in FINALIZED (R87). -/
  | finalAfterFinal
  /-- Code 4: a reserved opcode byte (R88). -/
  | illegalCommand
  /-- Code 5: an UPDATE past MAX_MSG_BYTES (R89). -/
  | lengthOverflow
deriving DecidableEq, Repr

/-- A response (R46). -/
inductive Response where
  /-- A successful INIT or UPDATE. -/
  | ok
  /-- A successful FINAL, with the digest. -/
  | digest (d : List Byte)
  /-- A command that raised an error. -/
  | error (e : ErrorCode)
deriving DecidableEq, Repr

/-- The core and its two streams. -/
structure State where
  /-- The Digest Context (R13). -/
  ctx : Context
  /-- The bytes received of a command that is not complete: empty at an opcode boundary (R45, R98). -/
  held : List Byte
  /-- What the outside delivers from here on, in order: the bytes of the command stream and resets (R24,
  R34, R99). The model's own field, not the core's storage (R45, log entry 2). -/
  input : List Input
  /-- The response stream since the last reset, in order (R24, R46, R98, log entry 4). -/
  resp : List Byte
deriving DecidableEq, Repr

/-- No step faults: every misuse is an error response (R83, R84, R92), and no command reads a field that
holds no value (R14, R16). So there is no fault for anything to raise (log entry 14). -/
inductive Fault
deriving DecidableEq, Repr

/-- Why a step could have no meaning. -/
inductive Refusal where
  /-- Raised by an arm of `exec` for an instruction without a meaning; no arm does (safe). -/
  | notModelled (mnemonic : String)
deriving DecidableEq, Repr

/-- The context after a reset: LIFECYCLE is UNINIT (R98). The spec gives the other fields no value; the
model holds zeros in them (log entry 1), which no command reads before INIT writes them (R85). -/
def Context.reset : Context where
  h := Vector.replicate 8 0
  buf := Vector.replicate 64 0
  bufLen := 0
  totalLen := 0
  lifecycle := .uninit

/-- The core right after power-on reset: the decoder at an opcode boundary, the response stream empty
(R98), and nothing delivered yet (R101). -/
def State.reset : State where
  ctx := Context.reset
  held := []
  input := []
  resp := []

end Sys2Proof.Machine
end

