-- ==== Sys2Proof/Machine/Flags.lean ====
section
/-! DEFINITION. The core has no flags and no condition codes; its only status output is the code of each
command's response (rule R21). This file holds those codes and the bytes of a response (rules R46 to
R48, R83), and LIFECYCLE's number (R17). -/

namespace Sys2Proof.Machine

/-- The numeric value of LIFECYCLE (R17); no command reads it as a number. -/
def lifecycleCode : Lifecycle → BitVec 2
  | .uninit => 0
  | .init => 1
  | .updating => 2
  | .finalized => 3

/-- The code of an error cause, 1 to 5 (R83). -/
def errorCode : ErrorCode → Byte
  | .notInitialized => 1
  | .updateAfterFinal => 2
  | .finalAfterFinal => 3
  | .illegalCommand => 4
  | .lengthOverflow => 5

/-- The status byte of a response (R46, R47): an error is `0x80 | code`. -/
def statusByte : Response → Byte
  | .ok => 0x00
  | .digest _ => 0x01
  | .error e => 0x80 ||| errorCode e

/-- The payload of a response: only a digest has one, digest byte 0 first (R46). -/
def payload : Response → List Byte
  | .digest d => d
  | .ok => []
  | .error _ => []

/-- The bytes of a response on the response stream (R46). -/
def responseBytes (r : Response) : List Byte := statusByte r :: payload r

/-- The reader of rule R48: the status bytes of a response stream in order, the 32 payload bytes after
each 0x01 skipped; `skip` counts the payload bytes still to come. -/
def statusBytes : Nat → List Byte → List Byte
  | _, [] => []
  | 0, b :: rest => b :: statusBytes (if b = 0x01 then 32 else 0) rest
  | skip + 1, _ :: rest => statusBytes skip rest

end Sys2Proof.Machine
end

