-- ==== Sys2Proof/Config.lean ====
section
/-! DEFINITION. What is fixed for this core (rule R5). The widths and counts of R5 stand in the types
that hold them: WORD_BITS in `Word`, STATE_WORDS and BLOCK_BYTES in `Context.h` and `Context.buf`,
BUF_CAPACITY in `Context.bufLen : Fin 64`, TOTAL_LEN_BITS in `Context.totalLen`. NUM_INSTANCES is
OPEN and is the argument of `platformReset`. No behaviour of the core depends on
PARAM_PHYS_BINDING (log entry 9), and the spec leaves no value open, so there is no free value. -/

namespace Sys2Proof.Config

/-- MAX_MSG_BYTES (R5, R89): the most message bytes whose bit count fits the 64-bit suffix. -/
def maxMsgBytes : Nat := 2 ^ 61 - 1

end Sys2Proof.Config
end

