-- ==== Sys2Proof/Syntax.lean ====
section
/-! DEFINITION. The commands of the core: one constructor per row of spec/opcode_table.json
(rule R39). -/

namespace Sys2Proof

/-- A complete command of the command stream (R38 to R44). -/
inductive Instr where
  /-- INIT, opcode 0x01, no operand (R40, R51). -/
  | init
  /-- UPDATE, opcode 0x02, with its data bytes; the LEN field is their number (R41, R52). -/
  | update (data : List Byte)
  /-- FINAL, opcode 0x03, no operand (R42, R54). -/
  | final
  /-- A reserved opcode byte, a 1-byte illegal command (R44, R88). -/
  | reserved (op : Byte)
deriving DecidableEq, Repr

/-- What the decoder finds at the head of a byte stream (R43). -/
inductive Decoded where
  /-- A complete command and the bytes after it. -/
  | command (i : Instr) (rest : List Byte)
  /-- HOLD: no complete command has arrived yet (R45; on no byte at all, R101). -/
  | hold
deriving DecidableEq, Repr

end Sys2Proof
end

