-- ==== Sys2Proof/WellFormed.lean ====
section
/-! DEFINITION. Which terms of `Instr` the encoding can express (rules R39, R41, R44). -/

namespace Sys2Proof

/-- The length of UPDATE's data fits the 64-bit LEN field (R41); a reserved opcode is none of the three
assigned ones (R44). -/
def Instr.WellFormed : Instr → Bool
  | .init => true
  | .update data => decide (data.length < 2 ^ 64)
  | .final => true
  | .reserved op => op != 0x01 && op != 0x02 && op != 0x03

end Sys2Proof
end

