-- ==== Sys2Proof/Decode.lean ====
section
/-! DEFINITION. The decoder of the command stream (rules R38 to R45), and after it the encoder, both
written from the formats of 30_encoding.md; and the 64-bit big-endian conversions they use (R9). -/

namespace Sys2Proof

/-- BE64 of an 8-byte sequence, the first byte the most significant (R9): the rule's weighted sum, by
Horner's scheme. -/
def be64 (s : List Byte) : BitVec 64 :=
  BitVec.ofNat 64 (s.foldl (fun v b => v * 256 + b.toNat) 0)

/-- BYTES64(v), the most significant byte first (R9). -/
def bytes64 (v : BitVec 64) : List Byte :=
  [v.extractLsb' 56 8, v.extractLsb' 48 8, v.extractLsb' 40 8, v.extractLsb' 32 8,
   v.extractLsb' 24 8, v.extractLsb' 16 8, v.extractLsb' 8 8, v.extractLsb' 0 8]

/-- UPDATE's operands, from the bytes after its opcode byte: 8 bytes of LEN, then LEN data bytes; HOLD
while some of them are missing (R41, R43, R45). -/
def decodeUpdate (body : List Byte) : Decoded :=
  if body.length < 8 then .hold
  else
    let n := (be64 (body.take 8)).toNat
    let data := body.drop 8
    if data.length < n then .hold else .command (.update (data.take n)) (data.drop n)

/-- The decoder: total on every byte sequence; the opcode byte alone selects the command (R39, R43). -/
def decode : List Byte → Decoded
  | [] => .hold
  | op :: rest =>
    if op = 0x01 then .command .init rest
    else if op = 0x03 then .command .final rest
    else if op = 0x02 then decodeUpdate rest
    else .command (.reserved op) rest

/-- The bytes of a command (R40, R41, R42, R44). -/
def encode : Instr → List Byte
  | .init => [0x01]
  | .update data => 0x02 :: bytes64 (BitVec.ofNat 64 data.length) ++ data
  | .final => [0x03]
  | .reserved op => [op]

/-- The total length of a command in bytes (R39). -/
def byteLength : Instr → Nat
  | .init => 1
  | .update data => 9 + data.length
  | .final => 1
  | .reserved _ => 1

/-- The commands of a stream in order, and the bytes left over; `fuel` bounds their number (R43). -/
def decodeUpTo : Nat → List Byte → List Instr × List Byte
  | 0, bs => ([], bs)
  | fuel + 1, bs =>
    match decode bs with
    | .hold => ([], bs)
    | .command i rest => (i :: (decodeUpTo fuel rest).1, (decodeUpTo fuel rest).2)

/-- Every byte sequence as a sequence of commands and one held rest (R43). A command takes at least one
byte, so the length is fuel enough. -/
def decodeStream (bs : List Byte) : List Instr × List Byte := decodeUpTo bs.length bs

/-- `count` bytes of the number `w`, byte 0 of the stream from its lowest bits: how
spec/opcode_table.json numbers an instruction's bits. -/
def lowBytes : Nat → Nat → List Byte
  | 0, _ => []
  | count + 1, w => BitVec.ofNat 8 w :: lowBytes count (w / 256)

/-- The bytes of the command whose bits are `w`, every bit from `nbits` on being 0: an UPDATE is filled
up with zero bytes to its 9 bytes and then to the data bytes its LEN declares (log entry 10). -/
def tableBytes (nbits w : Nat) : List Byte :=
  let given := lowBytes (max 1 ((nbits + 7) / 8)) (w % 2 ^ nbits)
  if given.head? = some 0x02 then
    let header := given ++ List.replicate (9 - given.length) 0
    let n := (be64 ((header.drop 1).take 8)).toNat
    header ++ List.replicate (9 + n - header.length) 0
  else given

/-- The command the decoder reads from the bits `w` of a table row; none where it holds. -/
def decodeTableWord (nbits w : Nat) : Option Instr :=
  match decode (tableBytes nbits w) with
  | .command i _ => some i
  | .hold => none

end Sys2Proof
end

