-- ==== Sys2Proof/Machine/Padding.lean ====
section
/-! DEFINITION. The padding/finalizer PAD, and the padding of a whole message (rules R59 to R65). -/

namespace Sys2Proof.Machine

/-- The number of zero bytes after a tail of length `l`, (55 - l) mod 64 (R59, R60). -/
def zeroFill (l : Nat) : Nat := ((55 - (l : Int)) % 64).toNat

/-- The padded tail: the tail, 0x80, the zero fill and the bit count of the whole message (R59, R62).
`total * 8` is exact for every legal total (R62); that it wraps mod 2^64 for a total past MAX_MSG_BYTES, which
no run reaches, is the model's (DESIGN CHOICE, log entry 7). -/
def padBytes (tail : List Byte) (total : BitVec 64) : List Byte :=
  tail ++ [0x80] ++ List.replicate (zeroFill tail.length) 0x00 ++ bytes64 (total * 8)

/-- PAD(tail, total): one or two 64-byte blocks (R59). -/
def pad (tail : List Byte) (total : BitVec 64) : List (List Byte) :=
  let p := padBytes tail total
  if p.length = 64 then [p.take 64] else [p.take 64, (p.drop 64).take 64]

/-- PADDING(l), the suffix of a message of `l` bytes (R65). For l ≤ MAX_MSG_BYTES the bit count `8 * l` is
exact. The spec gives a longer message no 64-bit bit count (D9, N11); that it is taken mod 2^64 there is the
model's, and no run reaches it (DESIGN CHOICE, log entry 7). -/
def padding (l : Nat) : List Byte :=
  [0x80] ++ List.replicate (zeroFill l) 0x00 ++ bytes64 (BitVec.ofNat 64 (8 * l))

end Sys2Proof.Machine
end

