-- ==== Sys2Proof/Machine/Serializer.lean ====
section
/-! DEFINITION. The digest state serializer (rules R28, R81, R82). -/

namespace Sys2Proof.Machine

/-- SERIALIZE(H): the words in order, each with its most significant byte first (R81). -/
def serialize (h : Vector Word 8) : List Byte :=
  bytes32 h[0] ++ bytes32 h[1] ++ bytes32 h[2] ++ bytes32 h[3] ++
    bytes32 h[4] ++ bytes32 h[5] ++ bytes32 h[6] ++ bytes32 h[7]

end Sys2Proof.Machine
end

