-- ==== Sys2Proof/Machine/Ops.lean ====
section
/-! DEFINITION. The shared operations over the context and the response stream: answering, raising an
error (the core's one form of exception, R92), the pieces of INIT, UPDATE and FINAL, and a reset. The
core has no addressable memory and no register file, so there is no memory or register access (R20, R24). -/

namespace Sys2Proof.Machine

/-- respond(r): the response goes to the end of the response stream (R10, R34, R48). -/
def respond (r : Response) (s : State) : State :=
  { s with resp := s.resp ++ responseBytes r }

/-- raise E(code): the error response and nothing else (R10, R90). There is no vector, handler, saved pc,
cause register or mode change, so there is no return from it either (R92, R93). -/
def raise (e : ErrorCode) (s : State) : Host.Outcome State Fault Refusal :=
  .next (respond (.error e) s)

/-- The valid bytes BUF[0..BUF_LEN), in arrival order: the tail at FINAL (R16). -/
def pendingBytes (c : Context) : List Byte := c.buf.toList.take c.bufLen.val

/-- The context INIT starts; BUF's bytes are not written (R51). -/
def startContext (c : Context) : Context :=
  { c with h := iv, bufLen := 0, totalLen := 0, lifecycle := .init }

/-- ABSORB(b): a full block is compressed as soon as its 64th byte arrives (R53). -/
def absorb (c : Context) (b : Byte) : Context :=
  let filled := c.buf.set c.bufLen.val b
  if hfull : c.bufLen.val + 1 = 64 then
    { c with h := compress c.h filled.toList, buf := filled, bufLen := 0 }
  else
    { c with buf := filled, bufLen := ⟨c.bufLen.val + 1, by omega⟩ }

/-- The absorb steps of one UPDATE, in order k = 0, 1, ... (R52). -/
def absorbAll (c : Context) (data : List Byte) : Context := data.foldl absorb c

/-- The context after an UPDATE of `data` that raises no error (R52). -/
def updateContext (c : Context) (data : List Byte) : Context :=
  { absorbAll c data with
    totalLen := c.totalLen + BitVec.ofNat 64 data.length
    lifecycle := .updating }

/-- Compresses blocks in order (R54, R63). -/
def compressAll (h : Vector Word 8) (blocks : List (List Byte)) : Vector Word 8 :=
  blocks.foldl compress h

/-- The context after a FINAL that raises no error: H keeps the final chaining value, TOTAL_LEN stays
(R54). -/
def finalContext (c : Context) : Context :=
  { c with
    h := compressAll c.h (pad (pendingBytes c) c.totalLen)
    bufLen := 0
    lifecycle := .finalized }

/-- A hardware reset: the context and the decoder take their reset values, a partly received command is
discarded, the response stream is empty, and no response is emitted (R98, R99, log entry 5). What the
outside delivers after it is untouched. -/
def hardwareReset (s : State) : State :=
  { ctx := Context.reset, held := [], input := s.input, resp := [] }

end Sys2Proof.Machine
end

