-- ==== Sys2Proof/Machine/Reserved.lean ====
section
/-! DEFINITION. The meaning of a reserved opcode byte (rules R44, R88). -/

namespace Sys2Proof.Machine

/-- A reserved opcode byte: ILLEGAL_COMMAND in every lifecycle state; the byte is not echoed (R83, R88). -/
def execReserved (_op : Byte) (s : State) : Host.Outcome State Fault Refusal :=
  raise .illegalCommand s

end Sys2Proof.Machine
end

