-- ==== Sys2Proof/Machine/Streaming.lean ====
section
/-! DEFINITION. The meanings of INIT, UPDATE and FINAL (rules R51 to R55). The bytes of the command have
been taken from the stream when a meaning runs (Fetch.lean). -/

namespace Sys2Proof.Machine

/-- INIT: legal in every lifecycle state, it abandons any context there is (R51). -/
def execInit (s : State) : Host.Outcome State Fault Refusal :=
  .next (respond .ok { s with ctx := startContext s.ctx })

/-- UPDATE: the errors in the order of rule R91, each checked before anything is written (R52, R90); the
length check is on the exact sum. -/
def execUpdate (data : List Byte) (s : State) : Host.Outcome State Fault Refusal :=
  if s.ctx.lifecycle = .uninit then raise .notInitialized s
  else if s.ctx.lifecycle = .finalized then raise .updateAfterFinal s
  else if s.ctx.totalLen.toNat + data.length > Config.maxMsgBytes then raise .lengthOverflow s
  else .next (respond .ok { s with ctx := updateContext s.ctx data })

/-- FINAL: pads, compresses the last block or blocks and answers with the digest (R54). -/
def execFinal (s : State) : Host.Outcome State Fault Refusal :=
  if s.ctx.lifecycle = .uninit then raise .notInitialized s
  else if s.ctx.lifecycle = .finalized then raise .finalAfterFinal s
  else
    let c := finalContext s.ctx
    .next (respond (.digest (serialize c.h)) { s with ctx := c })

end Sys2Proof.Machine
end

