-- ==== Sys2Proof/Machine/Fetch.lean ====
section
/-! DEFINITION. Taking the next command from the command stream (rules R34, R43, R45, R98, R99, R101).
The core has no program counter; its place in the stream is what `held` and `input` hold (R20). -/

namespace Sys2Proof.Machine

/-- The bytes delivered before the next reset, if there is one. -/
def leadingBytes : List Input → List Byte
  | .byte b :: rest => b :: leadingBytes rest
  | .reset :: _ => []
  | .resetBusy :: _ => []
  | [] => []

/-- What is delivered from the next reset on. -/
def afterBytes : List Input → List Input
  | .byte _ :: rest => afterBytes rest
  | .reset :: rest => .reset :: rest
  | .resetBusy :: rest => .resetBusy :: rest
  | [] => []

/-- What one step finds to do. -/
inductive Fetched where
  /-- Perform this command, its bytes taken from the stream. -/
  | perform (i : Instr) (s : State)
  /-- No command is performed: the core waits, or a reset lands. -/
  | settle (s : State)
deriving DecidableEq, Repr

/-- No complete command: the core waits for bytes (R45, R101) unless a reset ends the wait, which discards
what was received (R98, R99). -/
def waitForBytes (s : State) (bs : List Byte) (later : List Input) : State :=
  match later with
  | .reset :: more => hardwareReset { s with input := more }
  | .resetBusy :: more => hardwareReset { s with input := more }
  | later => { s with held := s.held ++ bs, input := later }

/-- A complete command `i` with `rest` after it: it is performed, unless a reset lands while it is being
performed, which abandons it without a response (R99). -/
def takeCommand (s : State) (i : Instr) (rest : List Byte) (later : List Input) : Fetched :=
  match rest, later with
  | [], .resetBusy :: more => .settle (hardwareReset { s with input := more })
  | rest, later => .perform i { s with held := [], input := rest.map Input.byte ++ later }

/-- The next thing the core does: commands are taken one at a time, in stream order (R34, R43). -/
def fetch (s : State) : Fetched :=
  let bs := leadingBytes s.input
  let later := afterBytes s.input
  match decode (s.held ++ bs) with
  | .command i rest => takeCommand s i rest later
  | .hold => .settle (waitForBytes s bs later)

/-- The state in which these bytes are the next ones of the stream, at an opcode boundary, and nothing is
delivered after them (log entry 10). -/
def deliver (bs : List Byte) (s : State) : State :=
  { s with held := [], input := bs.map Input.byte }

end Sys2Proof.Machine
end

