-- ==== Sys2Proof/Machine/Step.lean ====
section
/-! DEFINITION. One step of the core: one whole command, or one reset, or the wait for more bytes
(rules R2, R11, R32, R34). -/

namespace Sys2Proof.Machine

/-- One step. A command is atomic (R32); a core that waits stays as it is until bytes arrive (R45, R101,
log entry 3). -/
def step (s : State) : Host.Outcome State Fault Refusal :=
  match fetch s with
  | .perform i t => exec i t
  | .settle t => .next t

/-- `s` with the command whose bits are `w` placed where `step` takes its next command (log entry 10). -/
def State.withFetchWord (s : State) (nbits w : Nat) : State := deliver (tableBytes nbits w) s

end Sys2Proof.Machine
end

