-- ==== Sys2Proof/Machine/Assembler.lean ====
section
/-! DEFINITION. The spec's assembler notation and pseudo-commands (rules R49, R50), on its abstract
syntax: lines and data items. The core never sees it (log entry 13). -/

namespace Sys2Proof.Machine

/-- A data item of `UPDATE` (R49). -/
inductive DataItem where
  /-- `"text"`: its ASCII bytes, no terminator. -/
  | text (t : List Char)
  /-- `x"hh hh ..."`: these bytes. -/
  | hex (bs : List Byte)
  /-- `rep(b, count)`. -/
  | rep (b : Byte) (count : Nat)
deriving DecidableEq, Repr

/-- One line (R49) or pseudo-command (R50). -/
inductive Line where
  | init
  | update (data : List DataItem)
  | final
  /-- `.byte hh`: one raw byte. -/
  | rawByte (b : Byte)
  /-- `HASH <data>`. -/
  | hash (data : List DataItem)
  /-- `UPDATE* <data1>, <data2>, ...`. -/
  | updateEach (pieces : List (List DataItem))
deriving DecidableEq, Repr

/-- The bytes of one data item (R49). -/
def itemBytes : DataItem → List Byte
  | .text t => t.map fun ch => BitVec.ofNat 8 ch.toNat
  | .hex bs => bs
  | .rep b count => List.replicate count b

/-- The data of an `UPDATE`: its items concatenated in order (R49). -/
def dataBytes (data : List DataItem) : List Byte := data.flatMap itemBytes

/-- The bytes a line assembles to (R49, R50). -/
def lineBytes : Line → List Byte
  | .init => encode .init
  | .update data => encode (.update (dataBytes data))
  | .final => encode .final
  | .rawByte b => [b]
  | .hash data => encode .init ++ encode (.update (dataBytes data)) ++ encode .final
  | .updateEach pieces => pieces.flatMap fun data => encode (.update (dataBytes data))

/-- The command stream of a program text, line by line (R49). -/
def assemble (lines : List Line) : List Byte := lines.flatMap lineBytes

end Sys2Proof.Machine
end

