-- ==== Sys2Proof/Machine/Platform.lean ====
section
/-! DEFINITION. A platform of NUM_INSTANCES independent cores (rules R5, R23, R95). The host's machine
is one of them. -/

namespace Sys2Proof.Machine

/-- Independent cores, each with its own context and streams; they share no state (R95). -/
structure Platform where
  cores : List State
deriving DecidableEq, Repr

/-- `numInstances` cores after reset, NUM_INSTANCES being the platform's open parameter (R5, R95). -/
def platformReset (numInstances : Nat) : Platform := ⟨List.replicate numInstances State.reset⟩

/-- Core `k` takes one step; cores have no start-up order and no signals, so any core may be next (R95).
No core `k`: nothing happens. -/
def platformStep (k : Nat) (p : Platform) : Host.Outcome Platform Fault Refusal :=
  match p.cores[k]? with
  | none => .next p
  | some s =>
    match step s with
    | .next t => .next ⟨p.cores.set k t⟩
    | .fault r => .fault r
    | .refused r => .refused r

end Sys2Proof.Machine
end

