-- ==== Sys2Proof/Machine/Run.lean ====
section
/-! DEFINITION. Several commands in a row, and several steps (rules R34, R38). -/

namespace Sys2Proof.Machine

/-- Performs commands one at a time, in order (R34). -/
def performAll : List Instr → State → Host.Outcome State Fault Refusal
  | [], s => .next s
  | i :: more, s =>
    match exec i s with
    | .next t => performAll more t
    | .fault r => .fault r
    | .refused r => .refused r

/-- Takes `n` steps, stopping where one stops. -/
def stepMany : Nat → State → Host.Outcome State Fault Refusal
  | 0, s => .next s
  | n + 1, s =>
    match step s with
    | .next t => stepMany n t
    | .fault r => .fault r
    | .refused r => .refused r

/-- The bytes of a sequence of commands, back to back with no separator (R38). -/
def encodeAll (cmds : List Instr) : List Byte := cmds.flatMap encode

end Sys2Proof.Machine
end

