-- ==== Sys2Proof/Machine/Digest.lean ====
section
/-! DEFINITION. The digest of a whole message, as rule R58 defines it apart from any streaming. -/

namespace Sys2Proof.Machine

/-- The 64-byte blocks of a byte sequence in order, an incomplete one at its end left out: block `k` is
the bytes 64k .. 64k+63 (R26, R58). -/
def blocks (m : List Byte) : List (List Byte) :=
  (List.range (m.length / 64)).map fun k => (m.drop (64 * k)).take 64

/-- The bytes of a message after its last full block (R65). -/
def messageTail (m : List Byte) : List Byte := m.drop (64 * (m.length / 64))

/-- SHA256(M): the serialized fold of COMPRESS over the blocks of the padded message (R58). Past
MAX_MSG_BYTES bytes it takes the wrapped bit count of `padding` (DESIGN CHOICE, log entry 7). -/
def sha256 (m : List Byte) : List Byte :=
  serialize (compressAll iv (blocks (m ++ padding m.length)))

end Sys2Proof.Machine
end

