-- ==== Sys2Proof/Safety.lean ====
section
/-! DEFINITION. The terms in which statements speak of safe states: the invariants of the context, of the
decoder and of the response stream; what it is for a context to hold a message; when two contexts cannot
be told apart; and what it is for no error to have been reported. -/

namespace Sys2Proof.Machine

/-- A context that takes UPDATE and FINAL: INIT and UPDATING behave the same (R17, R55). -/
def Live (c : Context) : Prop := c.lifecycle = .init ∨ c.lifecycle = .updating

/-- The counters of a context agree with each other and with the bound (R16, R18, R52, R54). In UNINIT the
counters hold no value and nothing is asked of them (R98). -/
structure CountersAgree (c : Context) : Prop where
  /-- TOTAL_LEN stays within MAX_MSG_BYTES, so bits 63:61 are 0 (R18). -/
  bounded : c.lifecycle ≠ .uninit → c.totalLen.toNat ≤ Config.maxMsgBytes
  /-- BUF holds what is left of the message after its full blocks (R26, R52). -/
  pending : Live c → c.bufLen.val = c.totalLen.toNat % 64
  /-- A new context holds the IV and no byte (R51). -/
  fresh : c.lifecycle = .init → c.h = iv ∧ c.totalLen = 0
  /-- FINAL leaves the buffer empty (R54). -/
  closed : c.lifecycle = .finalized → c.bufLen = 0

/-- The core never holds more than the command being received (R45). -/
def HoldsIncomplete (s : State) : Prop := decode s.held = .hold

/-- A response the core may emit: the payload of a digest is 32 bytes (R46, R58). -/
def LegalResponse : Response → Prop
  | .ok => True
  | .digest d => d.length = 32
  | .error _ => True

/-- The response stream is a sequence of whole legal responses (R46, R47, R48). -/
def WholeResponses (s : State) : Prop :=
  ∃ rs : List Response, (∀ r ∈ rs, LegalResponse r) ∧ s.resp = rs.flatMap responseBytes

/-- The context holds the message `m`: every full block compressed in order from the IV, the rest in the
buffer, and its length counted (R26, R34, R52, R65). -/
structure HoldsMessage (m : List Byte) (c : Context) : Prop where
  live : Live c
  bounded : m.length ≤ Config.maxMsgBytes
  counted : c.totalLen.toNat = m.length
  chained : c.h = compressAll iv (blocks m)
  pending : pendingBytes c = messageTail m

/-- Every context but UNINIT's stands for a message: a live one holds it, a finalized one holds its final
chaining value and its length (R14, R18, R54). -/
structure StandsForMessage (c : Context) : Prop where
  live : Live c → ∃ m, HoldsMessage m c
  closed : c.lifecycle = .finalized →
    ∃ m : List Byte, m.length ≤ Config.maxMsgBytes ∧ c.totalLen.toNat = m.length ∧
      serialize c.h = sha256 m

/-- Two contexts that differ only where the spec gives no value: in UNINIT outside LIFECYCLE (R14, R98),
and in the bytes of BUF from BUF_LEN on (R16). -/
structure Indistinct (c d : Context) : Prop where
  lifecycle : c.lifecycle = d.lifecycle
  valued : c.lifecycle ≠ .uninit →
    c.h = d.h ∧ c.bufLen = d.bufLen ∧ c.totalLen = d.totalLen ∧ pendingBytes c = pendingBytes d

/-- The same streams and decoder, and contexts that cannot be told apart. -/
structure IndistinctStates (s t : State) : Prop where
  ctx : Indistinct s.ctx t.ctx
  held : s.held = t.held
  input : s.input = t.input
  resp : s.resp = t.resp

/-- No error is among these responses: a claim about the recorded responses (R92, R47). -/
def NoErrorIn (resp : List Byte) : Prop := ∀ b ∈ statusBytes 0 resp, b.toNat < 0x80

/-- The primes below `n` in order, by trial division (for R66 and R67). -/
def primesBelow (n : Nat) : List Nat :=
  (List.range n).filter fun p => 2 ≤ p && (List.range p).all fun d => d < 2 || p % d != 0

end Sys2Proof.Machine
end

