-- ==== Sys2Proof/Certificates/Slice0/Obligations.lean ====
section
/-! DEFINITION. The statements about the SHA-256 digest core, for the provers. Each docstring names the
rules of spec/ it rests on. `later` is what the outside delivers after the bytes spoken of; it does not
begin with a reset that lands while the last command is performed (that case is `ResetAbandonsTheCommand`). -/

open Sys2Proof Sys2Proof.Machine

/-! ### The command encoding -/

/-- R38 to R44: decoding the bytes of a well-formed command gives it back, with the bytes after it. -/
def Obligations.DecodeOfEncode : Prop :=
  ∀ (i : Instr) (rest : List Byte), i.WellFormed = true → decode (encode i ++ rest) = .command i rest

/-- R39 to R44: what the decoder reads as a command is well formed and was exactly that command's bytes. -/
def Obligations.EncodeOfDecode : Prop :=
  ∀ (bs : List Byte) (i : Instr) (rest : List Byte), decode bs = .command i rest →
    i.WellFormed = true ∧ bs = encode i ++ rest

/-- R43, R45: the decoder holds exactly on no byte, or on an UPDATE whose LEN or DATA bytes are missing. -/
def Obligations.DecoderHoldsExactlyWhenIncomplete : Prop :=
  ∀ bs : List Byte, decode bs = .hold ↔
    bs = [] ∨ (bs.head? = some 0x02 ∧
      (bs.length < 9 ∨ bs.length < 9 + (be64 ((bs.drop 1).take 8)).toNat))

/-- R43: every byte sequence decodes into a sequence of commands, followed by a held rest (or none). -/
def Obligations.EveryStreamDecodes : Prop :=
  ∀ bs : List Byte,
    (∀ i ∈ (decodeStream bs).1, i.WellFormed = true) ∧
    bs = encodeAll (decodeStream bs).1 ++ (decodeStream bs).2 ∧
    decode (decodeStream bs).2 = .hold

/-- 95_test_vectors.md V-ENC-1 to V-ENC-5, V-ENC-7, V-ENC-8: words written out from the formats
decode to the commands they stand for, and an incomplete one is held. -/
def Obligations.SpecWordsDecode : Prop :=
  decode [0x01] = .command .init [] ∧
  decode [0x03] = .command .final [] ∧
  decode [0x02, 0, 0, 0, 0, 0, 0, 0, 3, 0x61, 0x62, 0x63] = .command (.update [0x61, 0x62, 0x63]) [] ∧
  decode [0x02, 0, 0, 0, 0, 0, 0, 0, 0] = .command (.update []) [] ∧
  decode [0x02, 0, 0, 0, 0, 0, 0, 0, 2, 0x01, 0x03, 0x03] = .command (.update [0x01, 0x03]) [0x03] ∧
  decode [0x02, 0, 0] = .hold ∧
  decode [0x07] = .command (.reserved 0x07) []

/-- R41, R45, R104: after the opcode and LEN = n of an UPDATE, every byte that arrives is its data, a
command's opcode byte too. While fewer than n have arrived no command starts; once n have, they are exactly
the UPDATE's data, in order, and the bytes after them are left for the next command. -/
def Obligations.HeldUpdateTakesBytesAsData : Prop :=
  ∀ (n : Nat) (bs : List Byte), n < 2 ^ 64 →
    (bs.length < n → decode (0x02 :: bytes64 (BitVec.ofNat 64 n) ++ bs) = .hold) ∧
    (n ≤ bs.length → decode (0x02 :: bytes64 (BitVec.ofNat 64 n) ++ bs) =
      .command (.update (bs.take n)) (bs.drop n))

/-- R9: BE32 is the weighted sum with the first byte most significant, BYTES32 the bytes of the word from
the top, and each undoes the other. -/
def Obligations.BigEndianWord : Prop :=
  (∀ b0 b1 b2 b3 : Byte,
    (be32 b0 b1 b2 b3).toNat =
      b0.toNat * 2 ^ 24 + b1.toNat * 2 ^ 16 + b2.toNat * 2 ^ 8 + b3.toNat ∧
    bytes32 (be32 b0 b1 b2 b3) = [b0, b1, b2, b3]) ∧
  (∀ w : Word, ∃ b0 b1 b2 b3 : Byte, bytes32 w = [b0, b1, b2, b3] ∧ be32 b0 b1 b2 b3 = w)

/-- R9: BE64 of 8 bytes is the weighted sum with the first byte most significant; BYTES64 and BE64 undo
each other. -/
def Obligations.BigEndianLength : Prop :=
  (∀ b0 b1 b2 b3 b4 b5 b6 b7 : Byte,
    (be64 [b0, b1, b2, b3, b4, b5, b6, b7]).toNat =
      b0.toNat * 2 ^ 56 + b1.toNat * 2 ^ 48 + b2.toNat * 2 ^ 40 + b3.toNat * 2 ^ 32 +
      b4.toNat * 2 ^ 24 + b5.toNat * 2 ^ 16 + b6.toNat * 2 ^ 8 + b7.toNat ∧
    bytes64 (be64 [b0, b1, b2, b3, b4, b5, b6, b7]) = [b0, b1, b2, b3, b4, b5, b6, b7]) ∧
  (∀ v : BitVec 64, be64 (bytes64 v) = v)

/-! ### The compression function -/

/-- R8: ROTR moves bit (i + n) mod 32 to bit i, and SHR divides by 2^n, for the amounts 0 < n < 32. -/
def Obligations.RotationAndShift : Prop :=
  ∀ (x : Word) (n : Nat), 0 < n → n < 32 →
    (∀ i : Nat, i < 32 → (rotr x n).getLsbD i = x.getLsbD ((i + n) % 32)) ∧
    (shr x n).toNat = x.toNat / 2 ^ n

/-- R68 to R71: the four σ and Σ functions, with the examples of the rules. -/
def Obligations.SigmaFunctions : Prop :=
  (∀ x : Word, ssig0 x = rotr x 7 ^^^ rotr x 18 ^^^ shr x 3) ∧
  (∀ x : Word, ssig1 x = rotr x 17 ^^^ rotr x 19 ^^^ shr x 10) ∧
  (∀ x : Word, bsig0 x = rotr x 2 ^^^ rotr x 13 ^^^ rotr x 22) ∧
  (∀ x : Word, bsig1 x = rotr x 6 ^^^ rotr x 11 ^^^ rotr x 25) ∧
  ssig0 0x00000001 = 0x02004000 ∧ ssig1 0x00000001 = 0x0000a000 ∧
  bsig0 0x00000001 = 0x40080400 ∧ bsig1 0x00000001 = 0x04200080

/-- R72, R73: Ch picks, bit by bit, the bit of f where e is 1 and of g where it is 0; each bit of Maj is the
majority of the three; with the formulas and examples of the rules. -/
def Obligations.ChooseAndMajority : Prop :=
  (∀ e f g : Word, ch e f g = (e &&& f) ^^^ (~~~e &&& g)) ∧
  (∀ (e f g : Word) (i : Nat), i < 32 →
    (ch e f g).getLsbD i = if e.getLsbD i then f.getLsbD i else g.getLsbD i) ∧
  (∀ a b c : Word, maj a b c = (a &&& b) ^^^ (a &&& c) ^^^ (b &&& c)) ∧
  (∀ (a b c : Word) (i : Nat), i < 32 →
    ((maj a b c).getLsbD i = true ↔
      2 ≤ (a.getLsbD i).toNat + (b.getLsbD i).toNat + (c.getLsbD i).toNat)) ∧
  ch 0xF0F0F0F0 0xAAAAAAAA 0x55555555 = 0xA5A5A5A5 ∧
  maj 0xFFFFFFFF 0x12345678 0x9abcdef0 = 0x9abcdef8

/-- R66, R67: IV[i] is the first 32 bits of the fractional part of the square root of the (i+1)-th prime,
K[t] of the cube root of the (t+1)-th: with m the root times 2^32, rounded down, the constant is m mod 2^32. -/
def Obligations.ConstantsAreRootFractions : Prop :=
  (primesBelow 312).length = 64 ∧
  (∀ i : Fin 8, ∃ m : Nat, m ^ 2 ≤ (primesBelow 312).getD i 0 * 2 ^ 64 ∧
    (primesBelow 312).getD i 0 * 2 ^ 64 < (m + 1) ^ 2 ∧ iv[i] = BitVec.ofNat 32 m) ∧
  (∀ t : Fin 64, ∃ m : Nat, m ^ 3 ≤ (primesBelow 312).getD t 0 * 2 ^ 96 ∧
    (primesBelow 312).getD t 0 * 2 ^ 96 < (m + 1) ^ 3 ∧ roundConstant t = BitVec.ofNat 32 m)

/-- R74, R75: the first 16 words of the schedule are the block's big-endian words, and each of the 48 after
them follows from the ones 2, 7, 15 and 16 places before it. -/
def Obligations.MessageSchedule : Prop :=
  ∀ block : List Byte, block.length = 64 →
    (schedule block).length = 64 ∧
    (∀ j : Nat, j < 16 → ∃ b0 b1 b2 b3 : Byte, (block.drop (4 * j)).take 4 = [b0, b1, b2, b3] ∧
      (schedule block)[j]? = some (be32 b0 b1 b2 b3)) ∧
    (∀ t : Nat, 16 ≤ t → t < 64 → ∃ w2 w7 w15 w16 : Word,
      (schedule block)[t - 2]? = some w2 ∧ (schedule block)[t - 7]? = some w7 ∧
      (schedule block)[t - 15]? = some w15 ∧ (schedule block)[t - 16]? = some w16 ∧
      (schedule block)[t]? = some (ssig1 w2 + w7 + ssig0 w15 + w16))

/-- R77: one round, all right-hand sides read before it, and the rounds in order t = 0, 1, ..., with the
rule's example. -/
def Obligations.RoundsInOrder : Prop :=
  (∀ (a b c d e f g h k w : Word), round ⟨a, b, c, d, e, f, g, h⟩ k w =
    ⟨(h + bsig1 e + ch e f g + k + w) + (bsig0 a + maj a b c), a, b, c,
      d + (h + bsig1 e + ch e f g + k + w), e, f, g⟩) ∧
  (∀ (w : List Word) (v : Vars), rounds w 0 v = v) ∧
  (∀ (w : List Word) (t : Nat) (v : Vars) (x : Word), t < 64 → w[t]? = some x →
    rounds w (t + 1) v = round (rounds w t v) (roundConstant t) x) ∧
  rounds (schedule ([0x61, 0x62, 0x63, 0x80] ++ List.replicate 59 0 ++ [0x18])) 1 (initVars iv) =
    ⟨0x5d6aebcd, 0x6a09e667, 0xbb67ae85, 0x3c6ef372, 0xfa2a4622, 0x510e527f, 0x9b05688c, 0x1f83d9ab⟩

/-- R76, R78: the working variables start as H[0..7] in order, and after round 63 each is added back into
the corresponding word. -/
def Obligations.CompressFeedsForward : Prop :=
  ∀ (h : Vector Word 8) (block : List Byte), block.length = 64 →
    ∃ v : Vars, v = rounds (schedule block) 64 ⟨h[0], h[1], h[2], h[3], h[4], h[5], h[6], h[7]⟩ ∧
      compress h block = #v[h[0] + v.a, h[1] + v.b, h[2] + v.c, h[3] + v.d,
        h[4] + v.e, h[5] + v.f, h[6] + v.g, h[7] + v.h]

/-- 95_test_vectors.md V-CMP-4, V-CMP-5, V-KAT-1, V-KAT-4, and V-KAT-2 with the digest that
90_conflicts.md C1 corrects. -/
def Obligations.KnownAnswers : Prop :=
  compress iv ([0x61, 0x62, 0x63, 0x80] ++ List.replicate 59 0 ++ [0x18]) =
    #v[0xba7816bf, 0x8f01cfea, 0x414140de, 0x5dae2223, 0xb00361a3, 0x96177a9c, 0xb410ff61, 0xf20015ad] ∧
  compress iv (List.replicate 64 0) =
    #v[0xda5698be, 0x17b9b469, 0x62335799, 0x779fbeca, 0x8ce5d491, 0xc0d26243, 0xbafef9ea, 0x1837a9d8] ∧
  sha256 [0x61, 0x62, 0x63] = serialize #v[0xba7816bf, 0x8f01cfea, 0x414140de, 0x5dae2223, 0xb00361a3,
    0x96177a9c, 0xb410ff61, 0xf20015ad] ∧
  sha256 (dataBytes [.text "abcdbcdecdefdefgefghfghighijhijkijkljklmklmnlmnomnopnopq".toList]) =
    serialize #v[0x248d6a61, 0xd20638b8, 0xe5c02693, 0x0c3e6039, 0xa33ce459, 0x64ff2167, 0xf6ecedd4,
      0x19db06c1] ∧
  sha256 [] = serialize #v[0xe3b0c442, 0x98fc1c14, 0x9afbf4c8, 0x996fb924, 0x27ae41e4, 0x649b934c,
    0xa495991b, 0x7852b855]

/-! ### Padding and serializing -/

/-- R60: z is the smallest count with L + 1 + z ≡ 56 (mod 64): 55 - L up to L = 55, 119 - L from 56 to 63,
running from 0 to 63. -/
def Obligations.PadZeroFill : Prop :=
  ∀ l : Nat, l ≤ 63 →
    (l + 1 + zeroFill l) % 64 = 56 ∧
    (∀ z : Nat, (l + 1 + z) % 64 = 56 → zeroFill l ≤ z) ∧
    (l ≤ 55 → zeroFill l = 55 - l) ∧ (56 ≤ l → zeroFill l = 119 - l) ∧
    zeroFill l ≤ 63 ∧ zeroFill 55 = 0 ∧ zeroFill 56 = 63

/-- R59, R61: the blocks of PAD are 64 bytes each, one for a tail up to 55 bytes and two for a longer one,
and together they are the tail, 0x80, the zero fill and the bit count. In the two-block case the first is
the tail, 0x80 and 63 - L zero bytes, the second 56 zero bytes and the bit count. (For a total past
MAX_MSG_BYTES, which no run reaches, the bit count mod 2^64 is the model's choice: log entry 7.) -/
def Obligations.PadLayout : Prop :=
  ∀ (tail : List Byte) (total : BitVec 64), tail.length ≤ 63 →
    (∀ blk ∈ pad tail total, blk.length = 64) ∧
    (pad tail total).length = (if tail.length ≤ 55 then 1 else 2) ∧
    (pad tail total).flatten =
      tail ++ [0x80] ++ List.replicate (zeroFill tail.length) 0x00 ++ bytes64 (total * 8) ∧
    (56 ≤ tail.length → pad tail total =
      [tail ++ [0x80] ++ List.replicate (63 - tail.length) 0x00,
       List.replicate 56 0x00 ++ bytes64 (total * 8)])

/-- R62: the last 8 bytes of the last block are the message's length in bits, which fits 64 bits without a
wrap for every legal total and is a multiple of 8; it is the total, not the tail's length, that counts. -/
def Obligations.PadLengthSuffix : Prop :=
  ∀ (tail : List Byte) (total : BitVec 64), tail.length ≤ 63 → total.toNat ≤ Config.maxMsgBytes →
    (∃ blk, (pad tail total).getLast? = some blk ∧ blk.drop 56 = bytes64 (total * 8)) ∧
    (total * 8).toNat = total.toNat * 8 ∧ total.toNat * 8 ≤ 2 ^ 64 - 8

/-- R64: with an empty tail PAD returns one block; the tail is empty exactly for a message whose length is a
multiple of 64, the empty message among them. (In a state whose TOTAL_LEN is past MAX_MSG_BYTES, which no
run reaches, the bit count mod 2^64 is the model's choice: log entry 7.) -/
def Obligations.PadEmptyTail : Prop :=
  (∀ s : State, s.ctx.bufLen = 0 → pad (pendingBytes s.ctx) s.ctx.totalLen =
    [[0x80] ++ List.replicate 55 0x00 ++ bytes64 (s.ctx.totalLen * 8)]) ∧
  (∀ (s : State) (m : List Byte), HoldsMessage m s.ctx → (s.ctx.bufLen = 0 ↔ m.length % 64 = 0))

/-- R65: the padded message is a whole number of blocks, the message's full blocks first and then what PAD
makes of its tail. (The spec gives a message of more than MAX_MSG_BYTES bytes no 64-bit bit count; for one the
count is taken mod 2^64 on both sides, which is the model's choice: log entry 7.) -/
def Obligations.PaddedMessageBlocks : Prop :=
  ∀ m : List Byte,
    (m ++ padding m.length).length % 64 = 0 ∧
    blocks (m ++ padding m.length) = blocks m ++ pad (messageTail m) (BitVec.ofNat 64 m.length)

/-- R81, R28: the digest is 32 bytes, byte 4i + j being bits 31 - 8j to 24 - 8j of H[i]; with the rule's
example. -/
def Obligations.SerializeBytes : Prop :=
  (∀ h : Vector Word 8, (serialize h).length = 32 ∧
    ∀ (i : Fin 8) (j : Fin 4), (serialize h)[4 * i.val + j.val]? =
      some (h[i].extractLsb' (24 - 8 * j.val) 8)) ∧
  serialize #v[0x01234567, 0x89abcdef, 0x00000000, 0xffffffff, 0x80000000, 0x00000001, 0xdeadbeef,
      0x00ff00ff] =
    [0x01, 0x23, 0x45, 0x67, 0x89, 0xab, 0xcd, 0xef, 0x00, 0x00, 0x00, 0x00, 0xff, 0xff, 0xff, 0xff,
     0x80, 0x00, 0x00, 0x00, 0x00, 0x00, 0x00, 0x01, 0xde, 0xad, 0xbe, 0xef, 0x00, 0xff, 0x00, 0xff]

/-! ### INIT, UPDATE, FINAL and reserved opcodes -/

/-- R51, R33: INIT answers OK in every lifecycle state, with a new context: the IV, an empty buffer, no byte
counted. A second INIT leaves the same context, in every field that holds a value (`Indistinct`). BUF's bytes
hold no value after an INIT (R16), so the statement says nothing of them. -/
def Obligations.InitStartsContext : Prop :=
  ∀ s : State, ∃ t u : State, exec .init s = .next t ∧
    t.ctx.h = iv ∧ t.ctx.bufLen = 0 ∧ pendingBytes t.ctx = [] ∧ t.ctx.totalLen = 0 ∧
    t.ctx.lifecycle = .init ∧ t.resp = s.resp ++ [0x00] ∧ t.held = s.held ∧ t.input = s.input ∧
    exec .init t = .next u ∧ Indistinct u.ctx t.ctx

/-- R52, R53: in INIT and UPDATING an UPDATE within the bound answers OK. Every 64 bytes of the buffer and
the data, in order, are compressed once: floor((BUF_LEN + n) / 64) blocks. The rest stays in the buffer, the
count grows by n, and nothing else changes. -/
def Obligations.UpdateAbsorbsBlocks : Prop :=
  ∀ (s : State) (data : List Byte), s.ctx.lifecycle = .init ∨ s.ctx.lifecycle = .updating →
    s.ctx.totalLen.toNat + data.length ≤ Config.maxMsgBytes →
    ∃ t : State, exec (.update data) s = .next t ∧
      t.ctx.h = compressAll s.ctx.h (blocks (pendingBytes s.ctx ++ data)) ∧
      (blocks (pendingBytes s.ctx ++ data)).length = (s.ctx.bufLen.val + data.length) / 64 ∧
      pendingBytes t.ctx = messageTail (pendingBytes s.ctx ++ data) ∧
      t.ctx.bufLen.val = (s.ctx.bufLen.val + data.length) % 64 ∧
      t.ctx.totalLen.toNat = s.ctx.totalLen.toNat + data.length ∧
      t.ctx.lifecycle = .updating ∧ t.resp = s.resp ++ [0x00] ∧ t.held = s.held ∧ t.input = s.input

/-- R52, D24: a zero-length UPDATE changes nothing of the context but LIFECYCLE, and succeeds at
TOTAL_LEN = MAX_MSG_BYTES too. -/
def Obligations.ZeroLengthUpdate : Prop :=
  ∀ s : State, s.ctx.lifecycle = .init ∨ s.ctx.lifecycle = .updating →
    s.ctx.totalLen.toNat ≤ Config.maxMsgBytes →
    exec (.update []) s =
      .next { s with ctx := { s.ctx with lifecycle := .updating }, resp := s.resp ++ [0x00] }

/-- R54, R61, R63: in INIT and UPDATING, FINAL compresses the padding blocks in order, one up to BUF_LEN 55
and else two, and answers with the serialized result, 32 bytes; H keeps it, BUF_LEN is 0, and TOTAL_LEN, the
decoder, the input and the responses before stay. (In a state whose TOTAL_LEN is past MAX_MSG_BYTES, which no
run reaches, the bit count PAD takes is the model's choice: log entry 7.) -/
def Obligations.FinalPadsAndAnswers : Prop :=
  ∀ s : State, s.ctx.lifecycle = .init ∨ s.ctx.lifecycle = .updating →
    ∃ t : State, exec .final s = .next t ∧
      t.ctx.h = compressAll s.ctx.h (pad (pendingBytes s.ctx) s.ctx.totalLen) ∧
      (pad (pendingBytes s.ctx) s.ctx.totalLen).length = (if s.ctx.bufLen.val ≤ 55 then 1 else 2) ∧
      t.resp = s.resp ++ 0x01 :: serialize t.ctx.h ∧
      t.ctx.bufLen = 0 ∧ t.ctx.totalLen = s.ctx.totalLen ∧ t.ctx.lifecycle = .finalized ∧
      t.held = s.held ∧ t.input = s.input ∧ (serialize t.ctx.h).length = 32

/-- R85: before any INIT, UPDATE and FINAL answer 0x81 and change nothing; an UPDATE's data is taken from
the stream and discarded. -/
def Obligations.NotInitialized : Prop :=
  ∀ (s : State) (later : List Input), s.ctx.lifecycle = .uninit → s.held = [] →
    later.head? ≠ some .resetBusy →
    (∀ data : List Byte, data.length < 2 ^ 64 →
      step { s with input := (encode (.update data)).map Input.byte ++ later } =
        .next { s with input := later, resp := s.resp ++ [0x81] }) ∧
    step { s with input := (encode .final).map Input.byte ++ later } =
      .next { s with input := later, resp := s.resp ++ [0x81] }

/-- R86: in FINALIZED an UPDATE answers 0x82 and changes nothing, its data taken and discarded; a FINAL after
it still raises FINAL_AFTER_FINAL. -/
def Obligations.UpdateAfterFinal : Prop :=
  ∀ (s : State) (data : List Byte) (later : List Input), s.ctx.lifecycle = .finalized → s.held = [] →
    later.head? ≠ some .resetBusy → data.length < 2 ^ 64 →
    step { s with input := (encode (.update data)).map Input.byte ++ later } =
      .next { s with input := later, resp := s.resp ++ [0x82] } ∧
    exec .final { s with input := later, resp := s.resp ++ [0x82] } =
      .next { s with input := later, resp := s.resp ++ [0x82, 0x83] }

/-- R87: in FINALIZED a FINAL answers 0x83, with no digest, and changes nothing. -/
def Obligations.FinalAfterFinal : Prop :=
  ∀ s : State, s.ctx.lifecycle = .finalized →
    exec .final s = .next { s with resp := s.resp ++ [0x83] }

/-- R88: a reserved opcode byte answers 0x84 in every lifecycle state and changes nothing; exactly that byte
is taken from the stream. -/
def Obligations.IllegalCommand : Prop :=
  ∀ (s : State) (op : Byte) (later : List Input), op ≠ 0x01 → op ≠ 0x02 → op ≠ 0x03 → s.held = [] →
    later.head? ≠ some .resetBusy →
    step { s with input := .byte op :: later } =
      .next { s with input := later, resp := s.resp ++ [0x84] } ∧
    exec (.reserved op) s = .next { s with resp := s.resp ++ [0x84] }

/-- R89: an UPDATE past MAX_MSG_BYTES answers 0x85 and changes nothing, its data taken and discarded. The
context can still be used: a later UPDATE that fits extends the message as it stood, and a FINAL returns its
digest. The bound is what makes the 64-bit bit count exact: one byte more and it is not. -/
def Obligations.LengthOverflow : Prop :=
  (∀ total : BitVec 64, total.toNat ≤ Config.maxMsgBytes → (total * 8).toNat = total.toNat * 8) ∧
  (∀ total : BitVec 64, total.toNat = Config.maxMsgBytes + 1 → (total * 8).toNat ≠ total.toNat * 8) ∧
  ∀ (s t : State) (data : List Byte) (later : List Input),
    s.ctx.lifecycle = .init ∨ s.ctx.lifecycle = .updating →
    Config.maxMsgBytes < s.ctx.totalLen.toNat + data.length → data.length < 2 ^ 64 → s.held = [] →
    later.head? ≠ some .resetBusy → t = { s with input := later, resp := s.resp ++ [0x85] } →
    step { s with input := (encode (.update data)).map Input.byte ++ later } = .next t ∧
    (∀ m more : List Byte, HoldsMessage m s.ctx → m.length + more.length ≤ Config.maxMsgBytes →
      ∃ u : State, exec (.update more) t = .next u ∧ HoldsMessage (m ++ more) u.ctx) ∧
    (∀ m : List Byte, HoldsMessage m s.ctx →
      ∃ u : State, exec .final t = .next u ∧ u.resp = s.resp ++ [0x85] ++ 0x01 :: sha256 m)

/-- R91: the first error in the order applies, whatever the others: a reserved opcode has no other check;
then UNINIT, then FINALIZED, then the length; with the rule's example of 2^62 bytes in FINALIZED. -/
def Obligations.ErrorPriority : Prop :=
  ∀ (s : State) (data : List Byte) (op : Byte),
    exec (.reserved op) s = .next { s with resp := s.resp ++ [0x84] } ∧
    (s.ctx.lifecycle = .uninit →
      exec (.update data) s = .next { s with resp := s.resp ++ [0x81] } ∧
      exec .final s = .next { s with resp := s.resp ++ [0x81] }) ∧
    (s.ctx.lifecycle = .finalized →
      exec (.update data) s = .next { s with resp := s.resp ++ [0x82] } ∧
      exec .final s = .next { s with resp := s.resp ++ [0x83] }) ∧
    (s.ctx.lifecycle ≠ .uninit → s.ctx.lifecycle ≠ .finalized →
      Config.maxMsgBytes < s.ctx.totalLen.toNat + data.length →
      exec (.update data) s = .next { s with resp := s.resp ++ [0x85] }) ∧
    (s.ctx.lifecycle = .finalized → data.length = 2 ^ 62 →
      exec (.update data) s = .next { s with resp := s.resp ++ [0x82] })

/-- R90: a step that adds an error response performed a command, and all it did is add that response and
take the command's bytes. -/
def Obligations.ErrorsChangeNothing : Prop :=
  ∀ (s t : State) (e : ErrorCode), step s = .next t → t.resp = s.resp ++ [0x80 ||| errorCode e] →
    ∃ (i : Instr) (rest : List Byte), decode (s.held ++ leadingBytes s.input) = .command i rest ∧
      t = { s with held := [], input := rest.map Input.byte ++ afterBytes s.input, resp := t.resp }

/-- R55: the table of lifecycle transitions, for every state and command. -/
def Obligations.LifecycleTable : Prop :=
  ∀ (s : State) (data : List Byte) (op : Byte),
    (∃ t : State, exec .init s = .next t ∧ t.ctx.lifecycle = .init ∧ t.resp = s.resp ++ [0x00]) ∧
    exec (.reserved op) s = .next { s with resp := s.resp ++ [0x84] } ∧
    (s.ctx.lifecycle = .uninit →
      exec (.update data) s = .next { s with resp := s.resp ++ [0x81] } ∧
      exec .final s = .next { s with resp := s.resp ++ [0x81] }) ∧
    (s.ctx.lifecycle = .init ∨ s.ctx.lifecycle = .updating →
      (s.ctx.totalLen.toNat + data.length ≤ Config.maxMsgBytes →
        ∃ t : State, exec (.update data) s = .next t ∧ t.ctx.lifecycle = .updating ∧
          t.resp = s.resp ++ [0x00]) ∧
      (Config.maxMsgBytes < s.ctx.totalLen.toNat + data.length →
        exec (.update data) s = .next { s with resp := s.resp ++ [0x85] }) ∧
      ∃ (t : State) (d : List Byte), exec .final s = .next t ∧ t.ctx.lifecycle = .finalized ∧
        d.length = 32 ∧ t.resp = s.resp ++ 0x01 :: d) ∧
    (s.ctx.lifecycle = .finalized →
      exec (.update data) s = .next { s with resp := s.resp ++ [0x82] } ∧
      exec .final s = .next { s with resp := s.resp ++ [0x83] })

/-- R14, R15, R52, R54, R90: which writes H gets. INIT writes the IV. An UPDATE that succeeds compresses the
64-byte blocks of the buffer and the data, a FINAL that succeeds the blocks of PAD, and nothing else; every
UPDATE and FINAL that does not succeed, every reserved opcode, and every command that answers an error leaves
H. FINAL leaves TOTAL_LEN, and a reserved opcode the whole context. (In a state whose TOTAL_LEN is past
MAX_MSG_BYTES, which no run reaches, the bit count in the blocks of PAD is the model's choice: log entry 7.) -/
def Obligations.ChainingValueOnlyCompressed : Prop :=
  ∀ s t : State,
    (exec .init s = .next t → t.ctx.h = iv) ∧
    (∀ data : List Byte, exec (.update data) s = .next t →
      t.ctx.h = compressAll s.ctx.h
        (if (s.ctx.lifecycle = .init ∨ s.ctx.lifecycle = .updating) ∧
            s.ctx.totalLen.toNat + data.length ≤ Config.maxMsgBytes
          then blocks (pendingBytes s.ctx ++ data) else [])) ∧
    (exec .final s = .next t →
      t.ctx.h = compressAll s.ctx.h
        (if s.ctx.lifecycle = .init ∨ s.ctx.lifecycle = .updating
          then pad (pendingBytes s.ctx) s.ctx.totalLen else []) ∧
      t.ctx.totalLen = s.ctx.totalLen) ∧
    (∀ op : Byte, exec (.reserved op) s = .next t → t.ctx = s.ctx) ∧
    (∀ (i : Instr) (e : ErrorCode), exec i s = .next t → t.resp = s.resp ++ [0x80 ||| errorCode e] →
      t.ctx.h = s.ctx.h) ∧
    (∀ data : List Byte, ∀ b ∈ blocks (pendingBytes s.ctx ++ data), b.length = 64) ∧
    (∀ b ∈ pad (pendingBytes s.ctx) s.ctx.totalLen, b.length = 64)

/-- The frame of every command: it leaves the decoder, the input and the responses already given, and adds
exactly one response, an OK only for INIT and UPDATE and a digest only for FINAL (R34, R46, R47, R48). -/
def Obligations.OneResponsePerCommand : Prop :=
  ∀ (i : Instr) (s : State), ∃ (t : State) (r : Response), exec i s = .next t ∧
    t.resp = s.resp ++ responseBytes r ∧ LegalResponse r ∧
    statusByte r ∈ [0x00, 0x01, 0x81, 0x82, 0x83, 0x84, 0x85] ∧
    (r = .ok → i = .init ∨ ∃ data, i = .update data) ∧
    ((∃ d, r = .digest d) → i = .final) ∧
    t.held = s.held ∧ t.input = s.input

/-- R48: the reader that skips 32 payload bytes after each 0x01 recovers the status of every response, in
order. -/
def Obligations.StatusBytesRecovered : Prop :=
  ∀ rs : List Response, (∀ r ∈ rs, LegalResponse r) →
    statusBytes 0 (rs.flatMap responseBytes) = rs.map statusByte

/-! ### Whole messages -/

/-- R26, R34, R52: an UPDATE within the bound appends its data to the message the context holds. -/
def Obligations.UpdateExtendsMessage : Prop :=
  ∀ (s : State) (m data : List Byte), HoldsMessage m s.ctx →
    m.length + data.length ≤ Config.maxMsgBytes →
    ∃ t : State, exec (.update data) s = .next t ∧ HoldsMessage (m ++ data) t.ctx

/-- R54, R58, R65: FINAL answers with the SHA-256 digest of the message the context holds. -/
def Obligations.FinalGivesDigestOfMessage : Prop :=
  ∀ (s : State) (m : List Byte), HoldsMessage m s.ctx →
    ∃ t : State, exec .final s = .next t ∧ t.resp = s.resp ++ 0x01 :: sha256 m ∧
      (sha256 m).length = 32

/-- R34, R57, R58, R84: from any state, INIT, UPDATEs of the pieces of a message of at most MAX_MSG_BYTES
bytes and FINAL raise no error and answer with the digest of the whole message. -/
def Obligations.StreamedDigest : Prop :=
  ∀ (s : State) (pieces : List (List Byte)), pieces.flatten.length ≤ Config.maxMsgBytes →
    ∃ t : State, performAll (.init :: (pieces.map Instr.update ++ [.final])) s = .next t ∧
      t.ctx.lifecycle = .finalized ∧
      t.resp = s.resp ++ 0x00 :: (List.replicate pieces.length 0x00 ++ 0x01 :: sha256 pieces.flatten)

/-- R56: incremental equivalence. From any state, if INIT, the UPDATEs of a split of a message and FINAL
raise no error, they give the same digest as one UPDATE of the whole. -/
def Obligations.IncrementalEquivalence : Prop :=
  ∀ (s t : State) (pieces : List (List Byte)) (r : List Byte), 1 ≤ pieces.length →
    performAll (.init :: (pieces.map Instr.update ++ [.final])) s = .next t →
    t.resp = s.resp ++ r → NoErrorIn r →
    ∃ (u : State) (d : List Byte), d.length = 32 ∧
      performAll [.init, .update pieces.flatten, .final] s = .next u ∧
      u.resp = s.resp ++ [0x00, 0x00] ++ 0x01 :: d ∧
      r = 0x00 :: (List.replicate pieces.length 0x00 ++ 0x01 :: d)

/-- R50: the bytes of HASH on the stream give the responses 00, 00, 01 and the digest, in three steps. -/
def Obligations.HashPseudoCommand : Prop :=
  ∀ (s : State) (data : List DataItem) (later : List Input), s.held = [] →
    later.head? ≠ some .resetBusy → (dataBytes data).length ≤ Config.maxMsgBytes →
    s.input = (lineBytes (.hash data)).map Input.byte ++ later →
    ∃ t : State, stepMany 3 s = .next t ∧ t.held = [] ∧ t.input = later ∧
      t.resp = s.resp ++ [0x00, 0x00, 0x01] ++ sha256 (dataBytes data)

/-- R50, R56: the bytes of INIT, UPDATE* of several items and FINAL give the digest of the items'
concatenation, one step a command. -/
def Obligations.UpdateEachPseudoCommand : Prop :=
  ∀ (s : State) (pieces : List (List DataItem)) (later : List Input), s.held = [] →
    later.head? ≠ some .resetBusy → (pieces.flatMap dataBytes).length ≤ Config.maxMsgBytes →
    s.input = (assemble [.init, .updateEach pieces, .final]).map Input.byte ++ later →
    ∃ t : State, stepMany (pieces.length + 2) s = .next t ∧ t.input = later ∧
      t.resp = s.resp ++ 0x00 :: (List.replicate pieces.length 0x00 ++
        0x01 :: sha256 (pieces.flatMap dataBytes))

/-! ### Steps, streams and resets -/

/-- R34, R43: a step performs the command the decoder reads from the bytes received and delivered, after
taking exactly its bytes; unless a reset lands while it would be performed. (Holding what is delivered as a
list of events, and the two reset events, are the model's choice: log entries 2 and 5.) -/
def Obligations.StepPerformsDecodedCommand : Prop :=
  ∀ (s : State) (i : Instr) (rest : List Byte),
    decode (s.held ++ leadingBytes s.input) = .command i rest →
    (rest = [] → ∀ more, afterBytes s.input ≠ .resetBusy :: more) →
    step s = exec i { s with held := [], input := rest.map Input.byte ++ afterBytes s.input }

/-- R34, R38, R48: the commands of a stream are performed one at a time in stream order, one a step, each
complete before the next. -/
def Obligations.CommandsRunInStreamOrder : Prop :=
  ∀ (s : State) (cmds : List Instr) (later : List Input), (∀ i ∈ cmds, i.WellFormed = true) →
    s.held = [] → later.head? ≠ some .resetBusy →
    s.input = (encodeAll cmds).map Input.byte ++ later →
    stepMany cmds.length s = performAll cmds { s with input := later }

/-- R45, R101, R104: while no complete command has arrived the core waits: it keeps the bytes received, the
context and the responses stay, and however many steps pass with nothing delivered, nothing happens. That a
waiting core's step is a next state, where R45 calls the run stuck and not finished, is the model's reading
(DEDUCED, log entry 3). -/
def Obligations.HeldCommandWaits : Prop :=
  ∀ s : State, decode (s.held ++ leadingBytes s.input) = .hold → afterBytes s.input = [] →
    ∀ n : Nat, stepMany (n + 1) s =
      .next { s with held := s.held ++ leadingBytes s.input, input := [] }

/-- R45: it makes no difference whether the bytes of a command arrive at once or in pieces: waiting on the
first piece and then receiving the rest is as receiving both. That the wait is a step to a next state is the
model's reading (DEDUCED, log entry 3). -/
def Obligations.ArrivalInPieces : Prop :=
  ∀ (s t : State) (bs more : List Byte) (later : List Input), s.input = bs.map Input.byte →
    decode (s.held ++ bs) = .hold → step s = .next t →
    step { t with input := more.map Input.byte ++ later } =
      step { s with input := (bs ++ more).map Input.byte ++ later }

/-- R98, R99: a reset while a command is being received, or while the one that was just completed is being
performed, abandons it: no response, the reset state, and the bytes after it decoded as new commands.
(That the response stream is empty is R98's table; the zeros in the unvalued fields are log entry 1.) -/
def Obligations.ResetAbandonsTheCommand : Prop :=
  ∀ (s : State) (more : List Input),
    (decode (s.held ++ leadingBytes s.input) = .hold →
      afterBytes s.input = .reset :: more ∨ afterBytes s.input = .resetBusy :: more →
      step s = .next { State.reset with input := more }) ∧
    (∀ i : Instr, decode (s.held ++ leadingBytes s.input) = .command i [] →
      afterBytes s.input = .resetBusy :: more → step s = .next { State.reset with input := more })

/-- R98, R101: after reset LIFECYCLE is UNINIT, the decoder is at an opcode boundary, no response is
pending, and the core waits until a byte arrives. The last clause, a step from State.reset to itself, is the
model's choice: the wait as a next state (DEDUCED, log entry 3), nothing delivered at reset (log entry 10),
and the zeros in the fields without a value, which State.reset names as a whole (log entry 1). -/
def Obligations.ResetState : Prop :=
  State.reset.ctx.lifecycle = .uninit ∧ State.reset.held = [] ∧ State.reset.resp = [] ∧
  step State.reset = .next State.reset

/-- R14, R16, R98: what the spec gives no value is never observed. Two states that differ only in the
context's fields in UNINIT, or in BUF from BUF_LEN on, step to such a pair again, with the same responses. -/
def Obligations.UnvaluedStateNeverObserved : Prop :=
  ∀ s t s' : State, IndistinctStates s t → step s = .next s' →
    ∃ t' : State, step t = .next t' ∧ IndistinctStates s' t'

/-- R17, R93: only an INIT command or a reset leaves FINALIZED. -/
def Obligations.OnlyInitOrResetLeavesFinalized : Prop :=
  ∀ s t : State, s.ctx.lifecycle = .finalized → step s = .next t → t.ctx.lifecycle ≠ .finalized →
    (t.ctx.lifecycle = .init ∧
      ∃ rest, decode (s.held ++ leadingBytes s.input) = .command .init rest) ∨
    (t.ctx.lifecycle = .uninit ∧
      ∃ more, afterBytes s.input = .reset :: more ∨ afterBytes s.input = .resetBusy :: more)

/-- R84: the core cannot fail: every step of every state answers a next state. That misuse and everything
else ends in no fault is the model's reading (DEDUCED, log entry 14), and so is a next state for a held
command, whose run R45 calls stuck (DEDUCED, log entry 3). -/
def Obligations.EveryStepAnswersNext : Prop :=
  ∀ s : State, ∃ t : State, step s = .next t

/-! ### Invariants -/

/-- R16, R18, R51, R52, R54: every step keeps the counters of the context in agreement: TOTAL_LEN within the
bound, BUF_LEN the count mod 64, a new context fresh, a finalized one empty. -/
def Obligations.StepKeepsCounters : Prop :=
  ∀ s t : State, CountersAgree s.ctx → step s = .next t → CountersAgree t.ctx

/-- R45: no step makes the core hold more than an incomplete command. (A waiting step that keeps the bytes
received is log entry 3.) -/
def Obligations.StepKeepsHeldIncomplete : Prop :=
  ∀ s t : State, HoldsIncomplete s → step s = .next t → HoldsIncomplete t

/-- R46, R47, R48: every step keeps the response stream a sequence of whole legal responses. -/
def Obligations.StepKeepsWholeResponses : Prop :=
  ∀ s t : State, WholeResponses s → step s = .next t → WholeResponses t

/-- R14, R15, R34, R58: every step keeps the context standing for a message: a live one holds it, a
finalized one holds its digest. -/
def Obligations.StepKeepsMessage : Prop :=
  ∀ s t : State, StandsForMessage s.ctx → step s = .next t → StandsForMessage t.ctx

/-- The four invariants hold right after reset (R98). -/
def Obligations.ResetMeetsInvariants : Prop :=
  CountersAgree State.reset.ctx ∧ HoldsIncomplete State.reset ∧ WholeResponses State.reset ∧
  StandsForMessage State.reset.ctx

/-! ### Several cores -/

/-- R23, R95: each core starts in UNINIT; a step of one core leaves every other core as it was, and steps of
two cores may be taken in either order. A platform as a list of states, one stepped at a time, is the model's
choice (log entry 15), as are the zeros in each State.reset (log entry 1). -/
def Obligations.CoresAreIndependent : Prop :=
  (∀ n k : Nat, k < n → (platformReset n).cores[k]? = some State.reset) ∧
  (∀ (p q : Platform) (k j : Nat), platformStep k p = .next q → j ≠ k →
    q.cores[j]? = p.cores[j]? ∧ q.cores.length = p.cores.length) ∧
  (∀ (p q r : Platform) (k j : Nat), j ≠ k → platformStep k p = .next q → platformStep j p = .next r →
    ∃ u : Platform, platformStep j q = .next u ∧ platformStep k r = .next u)
end

