-- ==== Sys2Proof/Laws/Decode.lean ====
section
/-! SUPPORT. The decoder on each kind of first byte, and the lengths of its parts. -/

namespace Sys2Proof

@[simp] theorem bytes64_length (v : BitVec 64) : (bytes64 v).length = 8 := rfl

@[simp] theorem decode_nil : decode [] = .hold := rfl
@[simp] theorem decode_init (rest : List Byte) : decode (0x01 :: rest) = .command .init rest := rfl
@[simp] theorem decode_final (rest : List Byte) : decode (0x03 :: rest) = .command .final rest := rfl
@[simp] theorem decode_update (rest : List Byte) : decode (0x02 :: rest) = decodeUpdate rest := rfl

/-- A reserved opcode byte is a command of one byte (R44). -/
theorem decode_reserved {op : Byte} (h1 : op ≠ 0x01) (h2 : op ≠ 0x02) (h3 : op ≠ 0x03)
    (rest : List Byte) : decode (op :: rest) = .command (.reserved op) rest := by
  rw [decode, if_neg h1, if_neg h3, if_neg h2]

/-- What the first byte decides (R39, R43). -/
theorem decode_cons_cases (op : Byte) (rest : List Byte) :
    (op = 0x01 ∧ decode (op :: rest) = .command .init rest) ∨
    (op = 0x03 ∧ decode (op :: rest) = .command .final rest) ∨
    (op = 0x02 ∧ decode (op :: rest) = decodeUpdate rest) ∨
    ((op ≠ 0x01 ∧ op ≠ 0x02 ∧ op ≠ 0x03) ∧ decode (op :: rest) = .command (.reserved op) rest) := by
  by_cases h1 : op = 0x01
  · exact .inl ⟨h1, by rw [h1, decode_init]⟩
  by_cases h3 : op = 0x03
  · exact .inr (.inl ⟨h3, by rw [h3, decode_final]⟩)
  by_cases h2 : op = 0x02
  · exact .inr (.inr (.inl ⟨h2, by rw [h2, decode_update]⟩))
  exact .inr (.inr (.inr ⟨⟨h1, h2, h3⟩, decode_reserved h1 h2 h3 rest⟩))

/-- The two outcomes of reading UPDATE's operands (R43). -/
theorem decodeUpdate_cases (body : List Byte) :
    (decodeUpdate body = .hold ∧
      (body.length < 8 ∨ body.length < 8 + (be64 (body.take 8)).toNat)) ∨
    (8 + (be64 (body.take 8)).toNat ≤ body.length ∧
      decodeUpdate body = .command (.update ((body.drop 8).take (be64 (body.take 8)).toNat))
        ((body.drop 8).drop (be64 (body.take 8)).toNat)) := by
  unfold decodeUpdate
  split
  · exact .inl ⟨rfl, .inl ‹_›⟩
  · simp only [List.length_drop]
    split
    · exact .inl ⟨rfl, .inr (by omega)⟩
    · exact .inr ⟨by omega, rfl⟩

namespace Machine

@[simp] theorem encodeAll_nil : encodeAll [] = [] := rfl
@[simp] theorem encodeAll_cons (i : Instr) (cmds : List Instr) :
    encodeAll (i :: cmds) = encode i ++ encodeAll cmds := rfl

end Machine

end Sys2Proof
end

