-- ==== Sys2Proof/Laws/State.lean ====
section
/-! SUPPORT. One lemma per field per update of the state and of the context, true by unfolding the update,
so that no later proof unfolds one. -/

namespace Sys2Proof.Machine

@[simp] theorem respond_ctx (r : Response) (s : State) : (respond r s).ctx = s.ctx := rfl
@[simp] theorem respond_held (r : Response) (s : State) : (respond r s).held = s.held := rfl
@[simp] theorem respond_input (r : Response) (s : State) : (respond r s).input = s.input := rfl
@[simp] theorem respond_resp (r : Response) (s : State) :
    (respond r s).resp = s.resp ++ responseBytes r := rfl

@[simp] theorem hardwareReset_ctx (s : State) : (hardwareReset s).ctx = Context.reset := rfl
@[simp] theorem hardwareReset_held (s : State) : (hardwareReset s).held = [] := rfl
@[simp] theorem hardwareReset_input (s : State) : (hardwareReset s).input = s.input := rfl
@[simp] theorem hardwareReset_resp (s : State) : (hardwareReset s).resp = [] := rfl

@[simp] theorem deliver_ctx (bs : List Byte) (s : State) : (deliver bs s).ctx = s.ctx := rfl
@[simp] theorem deliver_held (bs : List Byte) (s : State) : (deliver bs s).held = [] := rfl
@[simp] theorem deliver_input (bs : List Byte) (s : State) :
    (deliver bs s).input = bs.map Input.byte := rfl
@[simp] theorem deliver_resp (bs : List Byte) (s : State) : (deliver bs s).resp = s.resp := rfl

@[simp] theorem startContext_h (c : Context) : (startContext c).h = iv := rfl
@[simp] theorem startContext_buf (c : Context) : (startContext c).buf = c.buf := rfl
@[simp] theorem startContext_bufLen (c : Context) : (startContext c).bufLen = 0 := rfl
@[simp] theorem startContext_totalLen (c : Context) : (startContext c).totalLen = 0 := rfl
@[simp] theorem startContext_lifecycle (c : Context) : (startContext c).lifecycle = .init := rfl

@[simp] theorem absorb_totalLen (c : Context) (b : Byte) : (absorb c b).totalLen = c.totalLen := by
  unfold absorb; split <;> rfl

@[simp] theorem absorb_lifecycle (c : Context) (b : Byte) : (absorb c b).lifecycle = c.lifecycle := by
  unfold absorb; split <;> rfl

@[simp] theorem absorb_buf (c : Context) (b : Byte) :
    (absorb c b).buf = c.buf.set c.bufLen.val b := by
  unfold absorb; split <;> rfl

@[simp] theorem absorbAll_nil (c : Context) : absorbAll c [] = c := rfl

@[simp] theorem absorbAll_cons (c : Context) (b : Byte) (data : List Byte) :
    absorbAll c (b :: data) = absorbAll (absorb c b) data := rfl

theorem absorbAll_append (c : Context) (d e : List Byte) :
    absorbAll c (d ++ e) = absorbAll (absorbAll c d) e := List.foldl_append

@[simp] theorem absorbAll_totalLen (data : List Byte) :
    ∀ c : Context, (absorbAll c data).totalLen = c.totalLen := by
  induction data with
  | nil => exact fun _ => rfl
  | cons b data ih => exact fun c => by rw [absorbAll_cons, ih, absorb_totalLen]

@[simp] theorem absorbAll_lifecycle (data : List Byte) :
    ∀ c : Context, (absorbAll c data).lifecycle = c.lifecycle := by
  induction data with
  | nil => exact fun _ => rfl
  | cons b data ih => exact fun c => by rw [absorbAll_cons, ih, absorb_lifecycle]

@[simp] theorem updateContext_h (c : Context) (data : List Byte) :
    (updateContext c data).h = (absorbAll c data).h := rfl
@[simp] theorem updateContext_buf (c : Context) (data : List Byte) :
    (updateContext c data).buf = (absorbAll c data).buf := rfl
@[simp] theorem updateContext_bufLen (c : Context) (data : List Byte) :
    (updateContext c data).bufLen = (absorbAll c data).bufLen := rfl
@[simp] theorem updateContext_totalLen (c : Context) (data : List Byte) :
    (updateContext c data).totalLen = c.totalLen + BitVec.ofNat 64 data.length := rfl
@[simp] theorem updateContext_lifecycle (c : Context) (data : List Byte) :
    (updateContext c data).lifecycle = .updating := rfl

@[simp] theorem finalContext_h (c : Context) :
    (finalContext c).h = compressAll c.h (pad (pendingBytes c) c.totalLen) := rfl
@[simp] theorem finalContext_buf (c : Context) : (finalContext c).buf = c.buf := rfl
@[simp] theorem finalContext_bufLen (c : Context) : (finalContext c).bufLen = 0 := rfl
@[simp] theorem finalContext_totalLen (c : Context) : (finalContext c).totalLen = c.totalLen := rfl
@[simp] theorem finalContext_lifecycle (c : Context) : (finalContext c).lifecycle = .finalized := rfl

end Sys2Proof.Machine
end

