-- ==== Sys2Proof/Laws/Ops.lean ====
section
/-! SUPPORT. What each shared operation does, once: absorbing a byte, compressing a list of blocks,
cutting a message into blocks, the lengths of the byte conversions. -/

namespace Sys2Proof.Machine

@[simp] theorem bytes32_length (w : Word) : (bytes32 w).length = 4 := rfl

theorem zeroFill_of_le {l : Nat} (h : l ≤ 55) : zeroFill l = 55 - l := by
  unfold zeroFill; omega

theorem zeroFill_of_gt {l : Nat} (h : 55 < l) (h' : l ≤ 63) : zeroFill l = 119 - l := by
  unfold zeroFill; omega

@[simp] theorem pendingBytes_length (c : Context) : (pendingBytes c).length = c.bufLen.val := by
  simp [pendingBytes, Nat.le_of_lt c.bufLen.isLt]

theorem pendingBytes_of_empty {c : Context} (h : c.bufLen = 0) : pendingBytes c = [] := by
  simp [pendingBytes, h]

/-- The valid bytes after byte `b` is written at BUF_LEN. -/
theorem take_set_succ (buf : Vector Byte 64) (n : Nat) (hn : n < 64) (b : Byte) :
    (buf.set n b).toList.take (n + 1) = buf.toList.take n ++ [b] := by
  rw [Vector.toList_set, List.take_add_one, List.take_set_of_le (Nat.le_refl n)]
  simp [hn]

/-- ABSORB while the buffer has room after the byte: it only grows (R53). -/
theorem absorb_of_room {c : Context} (b : Byte) (h : c.bufLen.val < 63) :
    (absorb c b).h = c.h ∧ (absorb c b).bufLen.val = c.bufLen.val + 1 ∧
      pendingBytes (absorb c b) = pendingBytes c ++ [b] := by
  have hne : c.bufLen.val + 1 ≠ 64 := by omega
  unfold absorb
  simp only [hne, dite_false, true_and, pendingBytes]
  exact take_set_succ _ _ c.bufLen.isLt b

/-- ABSORB of the 64th byte: one COMPRESS, and the buffer is empty (R53). -/
theorem absorb_of_full {c : Context} (b : Byte) (h : c.bufLen.val = 63) :
    (absorb c b).h = compress c.h (pendingBytes c ++ [b]) ∧ (absorb c b).bufLen = 0 ∧
      pendingBytes (absorb c b) = [] := by
  have he : c.bufLen.val + 1 = 64 := by omega
  have hb : (c.buf.set c.bufLen.val b).toList = pendingBytes c ++ [b] := by
    rw [pendingBytes, ← take_set_succ _ _ c.bufLen.isLt b, he, List.take_of_length_le (by simp)]
  unfold absorb
  simp only [he, dite_true, hb, true_and, pendingBytes]
  simp

@[simp] theorem compressAll_nil (h : Vector Word 8) : compressAll h [] = h := rfl

theorem compressAll_append (h : Vector Word 8) (xs ys : List (List Byte)) :
    compressAll h (xs ++ ys) = compressAll (compressAll h xs) ys := List.foldl_append

@[simp] theorem blocks_length (m : List Byte) : (blocks m).length = m.length / 64 := by
  simp [blocks]

/-- A message shorter than a block has no full block. -/
theorem blocks_of_short {m : List Byte} (h : m.length < 64) : blocks m = [] := by
  simp [blocks, Nat.div_eq_of_lt h]

/-- The first block of a message that has one, and the blocks of the rest. -/
theorem blocks_block_append (x m : List Byte) (hx : x.length = 64) :
    blocks (x ++ m) = x :: blocks m := by
  have hlen : (x ++ m).length / 64 = m.length / 64 + 1 := by simp [hx]
  have hdrop : ∀ k, (x ++ m).drop (64 * (k + 1)) = m.drop (64 * k) := fun k => by
    rw [show 64 * (k + 1) = x.length + 64 * k by omega, List.drop_append]
    simp
  unfold blocks
  rw [hlen, List.range_succ_eq_map, List.map_cons, List.map_map]
  congr 1
  · simp [← hx]
  · exact List.map_congr_left fun k _ => by simp [hdrop]

/-- What is left of a message after its full blocks does not change when a block is put before it. -/
theorem messageTail_block_append (x m : List Byte) (hx : x.length = 64) :
    messageTail (x ++ m) = messageTail m := by
  have hlen : (x ++ m).length / 64 = m.length / 64 + 1 := by simp [hx]
  unfold messageTail
  rw [hlen, show 64 * (m.length / 64 + 1) = x.length + 64 * (m.length / 64) by omega, List.drop_append]
  simp

theorem messageTail_of_short {m : List Byte} (h : m.length < 64) : messageTail m = m := by
  simp [messageTail, Nat.div_eq_of_lt h]

end Sys2Proof.Machine
end

