-- ==== Sys2Proof/Laws/PerInstr.lean ====
section
/-! SUPPORT. A law of every command as syntax, one lemma per constructor: its encoding has the length the
opcode map gives it (rule R39). -/

namespace Sys2Proof.Laws.EncodedLength

/-- The encoding of a command is as long as the opcode map says (R39). -/
def Statement (i : Instr) : Prop := (encode i).length = byteLength i

theorem init : Statement .init := rfl

theorem update (data : List Byte) : Statement (.update data) := by
  simp only [Statement, encode, byteLength, List.cons_append, List.length_cons, List.length_append,
    bytes64_length]
  omega

theorem final : Statement .final := rfl

theorem reserved (op : Byte) : Statement (.reserved op) := rfl

end Sys2Proof.Laws.EncodedLength
end

