-- ==== Sys2Proof/Laws/Step.lean ====
section
/-! SUPPORT. What each meaning can answer, and what one step can do: one inversion lemma each. -/

namespace Sys2Proof.Machine

theorem raise_eq (e : ErrorCode) (s : State) : raise e s = .next (respond (.error e) s) := rfl

theorem execInit_eq (s : State) :
    execInit s = .next (respond .ok { s with ctx := startContext s.ctx }) := rfl

/-- Everything an UPDATE can do: one of its three errors, or its effect (R52, R91). -/
theorem execUpdate_cases (data : List Byte) (s : State) :
    (s.ctx.lifecycle = .uninit ∧ execUpdate data s = .next (respond (.error .notInitialized) s)) ∨
    (s.ctx.lifecycle = .finalized ∧
      execUpdate data s = .next (respond (.error .updateAfterFinal) s)) ∨
    ((s.ctx.lifecycle = .init ∨ s.ctx.lifecycle = .updating) ∧
      Config.maxMsgBytes < s.ctx.totalLen.toNat + data.length ∧
      execUpdate data s = .next (respond (.error .lengthOverflow) s)) ∨
    ((s.ctx.lifecycle = .init ∨ s.ctx.lifecycle = .updating) ∧
      s.ctx.totalLen.toNat + data.length ≤ Config.maxMsgBytes ∧
      execUpdate data s = .next (respond .ok { s with ctx := updateContext s.ctx data })) := by
  unfold execUpdate raise
  cases s.ctx.lifecycle <;> simp <;> omega

/-- Everything a FINAL can do: one of its two errors, or its effect (R54, R91). -/
theorem execFinal_cases (s : State) :
    (s.ctx.lifecycle = .uninit ∧ execFinal s = .next (respond (.error .notInitialized) s)) ∨
    (s.ctx.lifecycle = .finalized ∧ execFinal s = .next (respond (.error .finalAfterFinal) s)) ∨
    ((s.ctx.lifecycle = .init ∨ s.ctx.lifecycle = .updating) ∧
      execFinal s = .next (respond (.digest (serialize (finalContext s.ctx).h))
        { s with ctx := finalContext s.ctx })) := by
  unfold execFinal raise
  cases s.ctx.lifecycle <;> simp

theorem execReserved_eq (op : Byte) (s : State) :
    execReserved op s = .next (respond (.error .illegalCommand) s) := rfl

/-- Everything a command can do: it answers one response, and either that is an error and the context is as
before, or it is the effect of INIT, UPDATE or FINAL. -/
theorem exec_cases (i : Instr) (s : State) : ∃ (c : Context) (r : Response),
    exec i s = .next (respond r { s with ctx := c }) ∧
    ((∃ e, r = .error e ∧ c = s.ctx) ∨
     (i = .init ∧ r = .ok ∧ c = startContext s.ctx) ∨
     (∃ data, i = .update data ∧ r = .ok ∧ c = updateContext s.ctx data ∧ Live s.ctx ∧
        s.ctx.totalLen.toNat + data.length ≤ Config.maxMsgBytes) ∨
     (i = .final ∧ r = .digest (serialize (finalContext s.ctx).h) ∧ c = finalContext s.ctx ∧
        Live s.ctx)) := by
  cases i with
  | init => exact ⟨_, _, rfl, .inr (.inl ⟨rfl, rfl, rfl⟩)⟩
  | reserved op => exact ⟨s.ctx, _, rfl, .inl ⟨_, rfl, rfl⟩⟩
  | update data =>
    rcases execUpdate_cases data s with ⟨_, he⟩ | ⟨_, he⟩ | ⟨_, _, he⟩ | ⟨hl, hb, he⟩
    · exact ⟨s.ctx, _, he, .inl ⟨_, rfl, rfl⟩⟩
    · exact ⟨s.ctx, _, he, .inl ⟨_, rfl, rfl⟩⟩
    · exact ⟨s.ctx, _, he, .inl ⟨_, rfl, rfl⟩⟩
    · exact ⟨_, _, he, .inr (.inr (.inl ⟨data, rfl, rfl, rfl, hl, hb⟩))⟩
  | final =>
    rcases execFinal_cases s with ⟨_, he⟩ | ⟨_, he⟩ | ⟨hl, he⟩
    · exact ⟨s.ctx, _, he, .inl ⟨_, rfl, rfl⟩⟩
    · exact ⟨s.ctx, _, he, .inl ⟨_, rfl, rfl⟩⟩
    · exact ⟨_, _, he, .inr (.inr (.inr ⟨rfl, rfl, rfl, hl⟩))⟩

/-- The bytes before the next reset and what comes from it on are the whole input. -/
theorem leadingBytes_append_afterBytes (inp : List Input) :
    (leadingBytes inp).map Input.byte ++ afterBytes inp = inp := by
  induction inp with
  | nil => rfl
  | cons e inp ih =>
    cases e with
    | byte b => simpa [leadingBytes, afterBytes] using ih
    | reset => rfl
    | resetBusy => rfl

@[simp] theorem leadingBytes_map_append (bs : List Byte) (later : List Input) :
    leadingBytes (bs.map Input.byte ++ later) = bs ++ leadingBytes later := by
  induction bs with
  | nil => rfl
  | cons b bs ih => simp [leadingBytes, ih]

@[simp] theorem afterBytes_map_append (bs : List Byte) (later : List Input) :
    afterBytes (bs.map Input.byte ++ later) = afterBytes later := by
  induction bs with
  | nil => rfl
  | cons b bs ih => simpa [afterBytes] using ih

@[simp] theorem leadingBytes_map (bs : List Byte) : leadingBytes (bs.map Input.byte) = bs := by
  simpa [leadingBytes] using leadingBytes_map_append bs []

@[simp] theorem afterBytes_map (bs : List Byte) : afterBytes (bs.map Input.byte) = [] := by
  simpa [afterBytes] using afterBytes_map_append bs []

/-- What comes after the leading bytes is nothing, or begins with a reset. -/
theorem afterBytes_cases (inp : List Input) :
    afterBytes inp = [] ∨ (∃ more, afterBytes inp = .reset :: more) ∨
      ∃ more, afterBytes inp = .resetBusy :: more := by
  induction inp with
  | nil => exact .inl rfl
  | cons e inp ih =>
    cases e with
    | byte b => simpa [afterBytes] using ih
    | reset => exact .inr (.inl ⟨inp, rfl⟩)
    | resetBusy => exact .inr (.inr ⟨inp, rfl⟩)

/-- Everything one step can do: wait, take a reset, abandon a command in a reset, or perform one. -/
theorem step_cases (s : State) :
    (decode (s.held ++ leadingBytes s.input) = .hold ∧ afterBytes s.input = [] ∧
      step s = .next { s with held := s.held ++ leadingBytes s.input, input := [] }) ∨
    (∃ more, decode (s.held ++ leadingBytes s.input) = .hold ∧
      (afterBytes s.input = .reset :: more ∨ afterBytes s.input = .resetBusy :: more) ∧
      step s = .next (hardwareReset { s with input := more })) ∨
    (∃ i more, decode (s.held ++ leadingBytes s.input) = .command i [] ∧
      afterBytes s.input = .resetBusy :: more ∧
      step s = .next (hardwareReset { s with input := more })) ∨
    (∃ i rest, decode (s.held ++ leadingBytes s.input) = .command i rest ∧
      (rest = [] → ∀ more, afterBytes s.input ≠ .resetBusy :: more) ∧
      step s = exec i { s with held := [], input := rest.map Input.byte ++ afterBytes s.input }) := by
  cases hd : decode (s.held ++ leadingBytes s.input) with
  | hold =>
    rcases afterBytes_cases s.input with ha | ⟨more, ha⟩ | ⟨more, ha⟩
    · exact .inl ⟨rfl, ha, by simp [step, fetch, hd, ha, waitForBytes]⟩
    · exact .inr (.inl ⟨more, rfl, .inl ha, by simp [step, fetch, hd, ha, waitForBytes]⟩)
    · exact .inr (.inl ⟨more, rfl, .inr ha, by simp [step, fetch, hd, ha, waitForBytes]⟩)
  | command i rest =>
    rcases rest with _ | ⟨b, rest⟩
    · rcases afterBytes_cases s.input with ha | ⟨more, ha⟩ | ⟨more, ha⟩
      · exact .inr (.inr (.inr ⟨i, [], rfl, by simp [ha], by simp [step, fetch, hd, ha, takeCommand]⟩))
      · exact .inr (.inr (.inr ⟨i, [], rfl, by simp [ha], by simp [step, fetch, hd, ha, takeCommand]⟩))
      · exact .inr (.inr (.inl ⟨i, more, rfl, ha, by simp [step, fetch, hd, ha, takeCommand]⟩))
    · exact .inr (.inr (.inr ⟨i, b :: rest, rfl, by simp, by simp [step, fetch, hd, takeCommand]⟩))

end Sys2Proof.Machine
end

