-- ==== Sys2Proof/Tests/Slice0.lean ====
section
/-! SUPPORT. The model's own tests, their expected values taken from spec/ (the vector is named in each
docstring); and for each statement with hypotheses a witness that meets them together. -/

namespace Sys2Proof.Tests

open Sys2Proof Sys2Proof.Machine

/-! ### Well-formedness -/

/-- R41: no LEN counts 2^64 data bytes. -/
theorem test_update_too_long_is_ill_formed :
    (Instr.update (List.replicate (2 ^ 64) 0)).WellFormed = false := by
  simp only [Instr.WellFormed, List.length_replicate]
  decide

/-- R44: the three assigned opcodes are not reserved, every other is. -/
theorem test_reserved_well_formed :
    (Instr.reserved 0x01).WellFormed = false ∧ (Instr.reserved 0x02).WellFormed = false ∧
    (Instr.reserved 0x03).WellFormed = false ∧ (Instr.reserved 0x00).WellFormed = true ∧
    (Instr.reserved 0x04).WellFormed = true ∧ (Instr.reserved 0xFF).WellFormed = true := by decide

/-! ### Decoding, from words written out from the formats of R40, R41, R42, R44 -/

/-- V-ENC-1. -/
theorem test_decode_init : decode [0b00000001] = .command .init [] := by decide

/-- V-ENC-3: LEN is big-endian, its last byte the least significant. -/
theorem test_decode_update : decode [0b00000010, 0, 0, 0, 0, 0, 0, 0, 3, 0x61, 0x62, 0x63] =
    .command (.update [0x61, 0x62, 0x63]) [] := by decide

/-- V-ENC-2. -/
theorem test_decode_final : decode [0b00000011, 0x01] = .command .final [0x01] := by decide

/-- V-ENC-8, and the reserved opcodes nearest the assigned ones. -/
theorem test_decode_reserved : decode [0x07] = .command (.reserved 0x07) [] ∧
    decode [0x00, 0x01] = .command (.reserved 0x00) [0x01] ∧
    decode [0x04] = .command (.reserved 0x04) [] := by decide

/-- V-ENC-6, V-ENC-7: an incomplete UPDATE is held. -/
theorem test_decode_holds : decode [0x02, 0, 0, 0, 0, 0, 0, 0, 4, 0x61, 0x62] = .hold ∧
    decode [0x02, 0, 0] = .hold := by decide

/-- R49's example, and its zero-length update. -/
theorem test_encode_update : lineBytes (.update [.text "abc".toList]) =
      [0x02, 0, 0, 0, 0, 0, 0, 0, 3, 0x61, 0x62, 0x63] ∧
    lineBytes (.update []) = [0x02, 0, 0, 0, 0, 0, 0, 0, 0] := by decide

/-- The table's four rows, read from their opcode bits. -/
theorem test_decodeTableWord : decodeTableWord 8 0x01 = some .init ∧
    decodeTableWord 8 0x02 = some (.update []) ∧ decodeTableWord 8 0x03 = some .final ∧
    decodeTableWord 8 0x00 = some (.reserved 0x00) ∧
    decodeTableWord 72 (0x02 + 2 * 2 ^ 64) = some (.update [0, 0]) := by decide

/-- A placed command is the next one performed. -/
theorem test_withFetchWord : step (State.reset.withFetchWord 8 0x02) = exec (.update []) State.reset :=
  rfl

/-! ### The pure functions -/

/-- 95_test_vectors.md, the bit function table at 0x61626380 and 0x6a09e667. -/
theorem test_bit_functions : ssig0 0x61626380 = 0x940e90ef ∧ ssig1 0x61626380 = 0x7da86405 ∧
    bsig0 0x6a09e667 = 0xce20b47e ∧ bsig1 0x510e527f = 0x3587272b ∧
    ch 0x510e527f 0x9b05688c 0x1f83d9ab = 0x1f85c98c ∧
    maj 0x510e527f 0x9b05688c 0x1f83d9ab = 0x1b0758af := by decide

/-- V-CMP-2: the first and the last expanded words. -/
theorem test_schedule :
    ((schedule ([0x61, 0x62, 0x63, 0x80] ++ List.replicate 59 0 ++ [0x18])).drop 16).take 4 =
      [0x61626380, 0x000f0000, 0x7da86405, 0x600003c6] ∧
    (schedule ([0x61, 0x62, 0x63, 0x80] ++ List.replicate 59 0 ++ [0x18])).drop 62 =
      [0xeeaba2cc, 0x12b1edeb] := by decide +kernel

/-- V-PAD-2 and V-PAD-4. -/
theorem test_pad :
    pad (List.replicate 55 0x61) 55 = [List.replicate 55 0x61 ++ [0x80, 0, 0, 0, 0, 0, 0, 0x01, 0xb8]] ∧
    pad (List.replicate 63 0x61) 63 =
      [List.replicate 63 0x61 ++ [0x80], List.replicate 56 0 ++ [0, 0, 0, 0, 0, 0, 0x01, 0xf8]] := by
  decide +kernel

/-- V-LEN-56: a message of two padding blocks. -/
theorem test_sha256_56 : sha256 (List.replicate 56 0x61) = serialize #v[0xb35439a4, 0xac6f0948,
    0xb6d6f9e3, 0xc6af0f5f, 0x590ce20f, 0x1bde7090, 0xef797068, 0x6ec6738a] := by decide +kernel

/-! ### The instructions: one step each, on small states -/

/-- A context in UPDATING that has counted `n` bytes and holds `k` bytes 0x61 in its buffer, H being the IV. -/
def openContext (n : BitVec 64) (k : Fin 64) : Context where
  h := iv
  buf := Vector.replicate 64 0x61
  bufLen := k
  totalLen := n
  lifecycle := .updating

/-- A core with that context and nothing on its streams. -/
def openState (n : BitVec 64) (k : Fin 64) : State := { State.reset with ctx := openContext n k }

/-- A core whose context is FINALIZED. -/
def closedState : State := { State.reset with ctx := { openContext 0 0 with lifecycle := .finalized } }

/-- A core that has just performed INIT. -/
def freshState : State := { State.reset with ctx := startContext Context.reset }

/-- A next state of which `p` holds. -/
def nextWith (o : Host.Outcome State Fault Refusal) (p : State → Bool) : Bool :=
  match o with
  | .next t => p t
  | .fault _ => false
  | .refused _ => false

/-- V-LC-11: INIT in UPDATING abandons the message. -/
theorem test_init : ∃ t, exec .init (openState 2 2) = .next t ∧ t.resp = [0x00] ∧
    t.ctx.lifecycle = .init ∧ t.ctx.h = iv ∧ t.ctx.bufLen = 0 ∧ t.ctx.totalLen = 0 :=
  ⟨_, rfl, rfl, rfl, rfl, rfl, rfl⟩

/-- V-LC-6: the 64th byte is compressed at once. -/
theorem test_update_compresses :
    nextWith (exec (.update (List.replicate 24 0x61)) (openState 40 40)) (fun t =>
      t.ctx.bufLen == 0 && t.ctx.totalLen == 64 && t.ctx.h == #v[0xdf5bb81c, 0xe81e0626, 0xfb45a894,
        0x4fd40f31, 0xb25e6816, 0xd6d499c1, 0xab904929, 0x00635e66]) = true := by decide +kernel

/-- V-LC-13: one byte too many, and nothing is absorbed. -/
theorem test_update_overflow :
    nextWith (exec (.update [0x61, 0x62]) (openState (2 ^ 61 - 2) 62)) (fun t =>
      t == { openState (2 ^ 61 - 2) 62 with resp := [0x85] }) = true := by decide +kernel

/-- V-LC-7: the digest of the empty message. -/
theorem test_final : ∃ t, exec .final freshState = .next t ∧ t.ctx.lifecycle = .finalized ∧
    t.resp = 0x01 :: serialize #v[0xe3b0c442, 0x98fc1c14, 0x9afbf4c8, 0x996fb924, 0x27ae41e4, 0x649b934c,
      0xa495991b, 0x7852b855] :=
  ⟨_, rfl, rfl, by decide +kernel⟩

/-- V-LC-9: a second FINAL gives no digest. -/
theorem test_final_twice : exec .final closedState = .next { closedState with resp := [0x83] } := rfl

/-- V-LC-12, in UNINIT. -/
theorem test_reserved : exec (.reserved 0xFF) State.reset = .next { State.reset with resp := [0x84] } :=
  rfl

/-- V-ENC-6: the held UPDATE gets no response. -/
theorem test_step_holds : step (deliver [0x02, 0, 0, 0, 0, 0, 0, 0, 4, 0x61, 0x62] freshState) =
    .next { freshState with held := [0x02, 0, 0, 0, 0, 0, 0, 0, 4, 0x61, 0x62] } := rfl

/-! ### Witnesses: states and operands that meet each statement's hypotheses together -/

theorem witness_DecodeOfEncode : (Instr.update [0x61]).WellFormed = true ∧
    (Instr.reserved 0xFF).WellFormed = true := by decide

theorem witness_EncodeOfDecode : decode [0x02, 0, 0, 0, 0, 0, 0, 0, 1, 0x61, 0x03] =
    .command (.update [0x61]) [0x03] := by decide

theorem witness_DecoderHoldsExactlyWhenIncomplete : decode [0x02, 0, 0, 0, 0, 0, 0, 0] = .hold ∧
    decode [0x02, 0, 0, 0, 0, 0, 0, 0, 1] = .hold ∧
    decode [0x02, 0, 0, 0, 0, 0, 0, 0, 0] = .command (.update []) [] := by decide

theorem witness_HeldUpdateTakesBytesAsData :
    (2 ^ 64 - 1 < 2 ^ 64 ∧ ([0x01, 0x03] : List Byte).length < 2 ^ 64 - 1) ∧
    (0 < 2 ^ 64 ∧ 0 ≤ ([] : List Byte).length) ∧
    2 < 2 ^ 64 ∧ 2 ≤ ([0x01, 0x03, 0x03] : List Byte).length := by decide

theorem witness_RotationAndShift : (0 < 1 ∧ 1 < 32) ∧ 0 < 31 ∧ 31 < 32 := by decide

theorem witness_MessageSchedule : (List.replicate 64 (0x61 : Byte)).length = 64 ∧
    15 < 16 ∧ 16 ≤ 16 ∧ 16 ≤ 63 ∧ 63 < 64 := by decide

theorem witness_RoundsInOrder : 63 < 64 ∧ (List.replicate 64 (1 : Word))[63]? = some 1 := by decide

theorem witness_CompressFeedsForward : (List.replicate 64 (0x61 : Byte)).length = 64 := by decide

theorem witness_PadZeroFill : 0 ≤ 63 ∧ 55 ≤ 63 ∧ 56 ≤ 63 ∧ 63 ≤ 63 := by decide

theorem witness_PadLayout : (List.replicate 55 (0x61 : Byte)).length ≤ 55 ∧
    56 ≤ (List.replicate 56 (0x61 : Byte)).length ∧ (List.replicate 63 (0x61 : Byte)).length ≤ 63 := by
  decide

theorem witness_PadLengthSuffix : (List.replicate 63 (0x61 : Byte)).length ≤ 63 ∧
    (2 ^ 61 - 1 : BitVec 64).toNat ≤ Config.maxMsgBytes := by decide +kernel

theorem witness_UpdateAbsorbsBlocks : (openState (2 ^ 61 - 2) 62).ctx.lifecycle = .updating ∧
    (openState (2 ^ 61 - 2) 62).ctx.totalLen.toNat + ([0x61] : List Byte).length ≤ Config.maxMsgBytes ∧
    freshState.ctx.lifecycle = .init := by decide +kernel

theorem witness_ZeroLengthUpdate : (openState (2 ^ 61 - 1) 63).ctx.lifecycle = .updating ∧
    (openState (2 ^ 61 - 1) 63).ctx.totalLen.toNat ≤ Config.maxMsgBytes := by decide +kernel

theorem witness_FinalPadsAndAnswers : freshState.ctx.lifecycle = .init ∧
    (openState 56 56).ctx.lifecycle = .updating := by decide

theorem witness_NotInitialized : State.reset.ctx.lifecycle = .uninit ∧ State.reset.held = [] ∧
    ([] : List Input).head? ≠ some .resetBusy ∧ ([0x78] : List Byte).length < 2 ^ 64 := by decide

theorem witness_UpdateAfterFinal : closedState.ctx.lifecycle = .finalized ∧ closedState.held = [] ∧
    ([.reset] : List Input).head? ≠ some .resetBusy ∧ ([0x61] : List Byte).length < 2 ^ 64 := by decide

theorem witness_FinalAfterFinal : closedState.ctx.lifecycle = .finalized := rfl

theorem witness_IllegalCommand : (0x00 : Byte) ≠ 0x01 ∧ (0x00 : Byte) ≠ 0x02 ∧ (0x00 : Byte) ≠ 0x03 ∧
    (0x04 : Byte) ≠ 0x01 ∧ (0x04 : Byte) ≠ 0x02 ∧ (0x04 : Byte) ≠ 0x03 ∧ State.reset.held = [] ∧
    ([.byte 0x01] : List Input).head? ≠ some .resetBusy := by decide

/-- A fresh context holds the empty message. -/
theorem freshState_holds_empty : HoldsMessage [] freshState.ctx :=
  ⟨.inl rfl, Nat.zero_le _, rfl, rfl, rfl⟩

theorem witness_PadEmptyTail : freshState.ctx.bufLen = 0 ∧ HoldsMessage [] freshState.ctx :=
  ⟨rfl, freshState_holds_empty⟩

theorem witness_LengthOverflow_bound : (2 ^ 61 - 1 : BitVec 64).toNat ≤ Config.maxMsgBytes ∧
    (2 ^ 61 : BitVec 64).toNat = Config.maxMsgBytes + 1 := by decide +kernel

theorem witness_LengthOverflow : freshState.ctx.lifecycle = .init ∧
    Config.maxMsgBytes < freshState.ctx.totalLen.toNat + (List.replicate (2 ^ 61) (0 : Byte)).length ∧
    (List.replicate (2 ^ 61) (0 : Byte)).length < 2 ^ 64 ∧ freshState.held = [] ∧
    ([] : List Input).head? ≠ some .resetBusy ∧ HoldsMessage [] freshState.ctx ∧
    ([] : List Byte).length + ([0x61] : List Byte).length ≤ Config.maxMsgBytes := by
  refine ⟨rfl, ?_, ?_, rfl, by decide, freshState_holds_empty, by decide⟩
  · rw [List.length_replicate]; decide
  · rw [List.length_replicate]; decide

theorem witness_ErrorPriority : State.reset.ctx.lifecycle = .uninit ∧
    closedState.ctx.lifecycle = .finalized ∧ (openState (2 ^ 61 - 1) 63).ctx.lifecycle ≠ .uninit ∧
    (openState (2 ^ 61 - 1) 63).ctx.lifecycle ≠ .finalized ∧
    Config.maxMsgBytes < (openState (2 ^ 61 - 1) 63).ctx.totalLen.toNat + ([0x61] : List Byte).length := by
  decide +kernel

theorem witness_ErrorPriority_example : closedState.ctx.lifecycle = .finalized ∧
    ∃ data : List Byte, data.length = 2 ^ 62 := ⟨rfl, List.replicate (2 ^ 62) 0, List.length_replicate⟩

theorem witness_ErrorsChangeNothing : step (deliver [0x03, 0x01] State.reset) =
      .next { State.reset with input := [.byte 0x01], resp := [0x81] } ∧
    ([0x81] : List Byte) = [] ++ [0x80 ||| errorCode .notInitialized] := ⟨rfl, rfl⟩

theorem witness_LifecycleTable : State.reset.ctx.lifecycle = .uninit ∧
    closedState.ctx.lifecycle = .finalized ∧ freshState.ctx.lifecycle = .init ∧
    (openState (2 ^ 61 - 2) 62).ctx.lifecycle = .updating ∧
    (openState (2 ^ 61 - 2) 62).ctx.totalLen.toNat + ([0x61] : List Byte).length ≤ Config.maxMsgBytes ∧
    Config.maxMsgBytes < (openState (2 ^ 61 - 2) 62).ctx.totalLen.toNat + ([0x61, 0x62] : List Byte).length :=
  by decide +kernel

theorem witness_ChainingValueOnlyCompressed :
    (∃ t, exec .init State.reset = .next t) ∧
    (∃ t, exec (.update [0x61]) freshState = .next t) ∧
    (∃ t, exec .final freshState = .next t) ∧
    (∃ t, exec (.reserved 0x07) freshState = .next t) ∧
    exec .final closedState =
      .next { closedState with resp := closedState.resp ++ [0x80 ||| errorCode .finalAfterFinal] } :=
  ⟨⟨_, rfl⟩, ⟨_, rfl⟩, ⟨_, rfl⟩, ⟨_, rfl⟩, rfl⟩

theorem witness_StatusBytesRecovered :
    ∀ r ∈ [Response.ok, .digest (List.replicate 32 0x01), .error .illegalCommand], LegalResponse r := by
  simp [LegalResponse]

theorem witness_UpdateExtendsMessage : HoldsMessage [] freshState.ctx ∧
    ([] : List Byte).length + ([0x61] : List Byte).length ≤ Config.maxMsgBytes :=
  ⟨freshState_holds_empty, by decide⟩

theorem witness_FinalGivesDigestOfMessage : HoldsMessage [] freshState.ctx := freshState_holds_empty

theorem witness_StreamedDigest :
    ([[0x61], [], [0x62, 0x63]] : List (List Byte)).flatten.length ≤ Config.maxMsgBytes := by decide

/-- The core after hashing the empty message with one zero-length UPDATE. -/
def hashedState : State :=
  match performAll [.init, .update [], .final] State.reset with
  | .next t => t
  | .fault _ => State.reset
  | .refused _ => State.reset

theorem witness_IncrementalEquivalence : 1 ≤ ([[]] : List (List Byte)).length ∧
    performAll (.init :: ([[]].map Instr.update ++ [.final])) State.reset = .next hashedState ∧
    hashedState.resp = State.reset.resp ++ hashedState.resp ∧ NoErrorIn hashedState.resp :=
  ⟨by decide, rfl, rfl, by unfold NoErrorIn; decide +kernel⟩

theorem witness_HashPseudoCommand : (deliver (lineBytes (.hash [.text "abc".toList])) State.reset).held = [] ∧
    ([] : List Input).head? ≠ some .resetBusy ∧
    (dataBytes [.text "abc".toList]).length ≤ Config.maxMsgBytes ∧
    (deliver (lineBytes (.hash [.text "abc".toList])) State.reset).input =
      (lineBytes (.hash [.text "abc".toList])).map Input.byte ++ [] := by decide

theorem witness_UpdateEachPseudoCommand :
    (deliver (assemble [.init, .updateEach [[.rep 0x61 2], []], .final]) State.reset).held = [] ∧
    ([] : List Input).head? ≠ some .resetBusy ∧
    ([[.rep 0x61 2], []].flatMap dataBytes).length ≤ Config.maxMsgBytes ∧
    (deliver (assemble [.init, .updateEach [[.rep 0x61 2], []], .final]) State.reset).input =
      (assemble [.init, .updateEach [[.rep 0x61 2], []], .final]).map Input.byte ++ [] := by decide

theorem witness_StepPerformsDecodedCommand :
    decode (State.reset.held ++ leadingBytes [.byte 0x01, .reset]) = .command .init [] ∧
    ∀ more, afterBytes [.byte 0x01, .reset] ≠ .resetBusy :: more := by
  refine ⟨by decide, fun more => by simp [afterBytes]⟩

theorem witness_CommandsRunInStreamOrder :
    (∀ i ∈ [Instr.init, .update [0x01, 0x03], .reserved 0x07], i.WellFormed = true) ∧
    State.reset.held = [] ∧ ([.reset] : List Input).head? ≠ some .resetBusy ∧
    ({ State.reset with input :=
        (encodeAll [.init, .update [0x01, 0x03], .reserved 0x07]).map Input.byte ++ [.reset] } : State).input =
      (encodeAll [.init, .update [0x01, 0x03], .reserved 0x07]).map Input.byte ++ [.reset] := by decide

theorem witness_HeldCommandWaits : decode ((deliver [0x02, 0] freshState).held ++
      leadingBytes (deliver [0x02, 0] freshState).input) = .hold ∧
    afterBytes (deliver [0x02, 0] freshState).input = [] := by decide

theorem witness_ArrivalInPieces : (deliver [0x02, 0] freshState).input = [0x02, 0].map Input.byte ∧
    decode ((deliver [0x02, 0] freshState).held ++ [0x02, 0]) = .hold ∧
    step (deliver [0x02, 0] freshState) = .next { freshState with held := [0x02, 0] } := ⟨rfl, rfl, rfl⟩

theorem witness_ResetAbandonsTheCommand :
    decode ([0x02] ++ leadingBytes [.byte 0, .reset, .byte 0x01]) = .hold ∧
    afterBytes [.byte 0, .reset, .byte 0x01] = [.reset, .byte 0x01] ∧
    decode ([] ++ leadingBytes [.byte 0x03, .resetBusy]) = .command .final [] ∧
    afterBytes [.byte 0x03, .resetBusy] = [.resetBusy] := by decide

/-- Two cores that differ in an unwritten H, and take a FINAL. -/
theorem witness_UnvaluedStateNeverObserved :
    IndistinctStates (deliver [0x03] State.reset)
      (deliver [0x03] { State.reset with ctx := { Context.reset with h := iv } }) ∧
    step (deliver [0x03] State.reset) = .next { State.reset with resp := [0x81] } :=
  ⟨⟨⟨rfl, fun h => absurd rfl h⟩, rfl, rfl, rfl⟩, rfl⟩

theorem witness_OnlyInitOrResetLeavesFinalized : closedState.ctx.lifecycle = .finalized ∧
    (∃ t, step (deliver [0x01] closedState) = .next t ∧ t.ctx.lifecycle ≠ .finalized) ∧
    (∃ t, step { closedState with input := [.reset] } = .next t ∧ t.ctx.lifecycle ≠ .finalized) :=
  ⟨rfl, ⟨_, rfl, by decide⟩, ⟨_, rfl, by decide⟩⟩

theorem witness_StepKeepsCounters : CountersAgree freshState.ctx ∧
    ∃ t, step (deliver [0x01] freshState) = .next t :=
  ⟨⟨fun _ => by decide, fun _ => by decide, fun _ => ⟨rfl, rfl⟩, fun _ => rfl⟩, ⟨_, rfl⟩⟩

theorem witness_StepKeepsHeldIncomplete : HoldsIncomplete { freshState with held := [0x02, 0] } ∧
    ∃ t, step { freshState with held := [0x02, 0] } = .next t := ⟨by unfold HoldsIncomplete; decide, ⟨_, rfl⟩⟩

theorem witness_StepKeepsWholeResponses : WholeResponses { freshState with resp := [0x00, 0x84] } ∧
    ∃ t, step { freshState with resp := [0x00, 0x84] } = .next t :=
  ⟨⟨[.ok, .error .illegalCommand], by simp [LegalResponse], rfl⟩, ⟨_, rfl⟩⟩

theorem witness_StepKeepsMessage : StandsForMessage freshState.ctx ∧
    ∃ t, step (deliver [0x03] freshState) = .next t :=
  ⟨⟨fun _ => ⟨[], freshState_holds_empty⟩, fun h => absurd h (by decide)⟩, ⟨_, rfl⟩⟩

theorem witness_CoresAreIndependent : 1 < 2 ∧ 0 ≠ 1 ∧
    (∃ q, platformStep 1 (platformReset 2) = .next q) ∧ ∃ r, platformStep 0 (platformReset 2) = .next r :=
  ⟨by decide, by decide, ⟨_, rfl⟩, ⟨_, rfl⟩⟩

end Sys2Proof.Tests
end

section
/-! PROOFS. The big-endian conversions and the shifts of the spec's notation (rules R8 and R9): the value
of each as a number or bit by bit, and from it the inverses. -/

namespace Sys2Proof.Machine

/-- The byte of a vector that starts at bit `k`, as a digit of its number. -/
theorem toNat_extractByte {w : Nat} (x : BitVec w) (k : Nat) :
    (x.extractLsb' k 8).toNat = x.toNat / 2 ^ k % 256 := by
  rw [BitVec.extractLsb'_toNat, Nat.shiftRight_eq_div_pow]

/-! ### Words of 32 bits -/

theorem toNat_be32 (b0 b1 b2 b3 : Byte) :
    (be32 b0 b1 b2 b3).toNat =
      b0.toNat * 2 ^ 24 + b1.toNat * 2 ^ 16 + b2.toNat * 2 ^ 8 + b3.toNat := by
  unfold be32
  rw [BitVec.toNat_ofNat]
  omega

@[simp] theorem bytes32_be32 (b0 b1 b2 b3 : Byte) : bytes32 (be32 b0 b1 b2 b3) = [b0, b1, b2, b3] := by
  simp only [bytes32, List.cons.injEq, and_true, ← BitVec.toNat_inj, toNat_extractByte, toNat_be32]
  omega

/-- BE32 of the four bytes of a word, in the order BYTES32 lists them, is the word. -/
theorem be32_extractBytes (w : Word) :
    be32 (w.extractLsb' 24 8) (w.extractLsb' 16 8) (w.extractLsb' 8 8) (w.extractLsb' 0 8) = w := by
  rw [← BitVec.toNat_inj]
  simp only [toNat_be32, toNat_extractByte]
  omega

/-- Settles O7: the weighted sum does not wrap, and its digits to base 256 are the bytes. -/
theorem bigEndianWord : Obligations.BigEndianWord :=
  ⟨fun b0 b1 b2 b3 => ⟨toNat_be32 b0 b1 b2 b3, bytes32_be32 b0 b1 b2 b3⟩,
    fun w => ⟨_, _, _, _, rfl, be32_extractBytes w⟩⟩

/-! ### Values of 64 bits -/

theorem toNat_be64 (b0 b1 b2 b3 b4 b5 b6 b7 : Byte) :
    (be64 [b0, b1, b2, b3, b4, b5, b6, b7]).toNat =
      b0.toNat * 2 ^ 56 + b1.toNat * 2 ^ 48 + b2.toNat * 2 ^ 40 + b3.toNat * 2 ^ 32 +
      b4.toNat * 2 ^ 24 + b5.toNat * 2 ^ 16 + b6.toNat * 2 ^ 8 + b7.toNat := by
  simp only [be64, List.foldl_cons, List.foldl_nil, BitVec.toNat_ofNat]
  omega

@[simp] theorem bytes64_be64 (b0 b1 b2 b3 b4 b5 b6 b7 : Byte) :
    bytes64 (be64 [b0, b1, b2, b3, b4, b5, b6, b7]) = [b0, b1, b2, b3, b4, b5, b6, b7] := by
  simp only [bytes64, List.cons.injEq, and_true, ← BitVec.toNat_inj, toNat_extractByte, toNat_be64]
  omega

@[simp] theorem be64_bytes64 (v : BitVec 64) : be64 (bytes64 v) = v := by
  rw [← BitVec.toNat_inj, bytes64, toNat_be64]
  simp only [toNat_extractByte]
  omega

/-- Settles O8, as O7: the weighted sum does not wrap, and its digits to base 256 are the bytes. -/
theorem bigEndianLength : Obligations.BigEndianLength :=
  ⟨fun b0 b1 b2 b3 b4 b5 b6 b7 =>
    ⟨toNat_be64 b0 b1 b2 b3 b4 b5 b6 b7, bytes64_be64 b0 b1 b2 b3 b4 b5 b6 b7⟩, be64_bytes64⟩

/-! ### Rotation and shift -/

/-- ROTR moves bit `i + n`, counted round the word, to bit `i`: the bits that do not wrap come from the
right shift, the others from the left shift (R8). -/
theorem getLsbD_rotr (x : Word) {n i : Nat} (hn : n < 32) (hi : i < 32) :
    (rotr x n).getLsbD i = x.getLsbD ((i + n) % 32) := by
  unfold rotr
  rw [BitVec.getLsbD_or, BitVec.getLsbD_ushiftRight, BitVec.getLsbD_shiftLeft]
  by_cases h : i + n < 32
  · have low : i < 32 - n := by omega
    rw [Nat.mod_eq_of_lt h, Nat.add_comm i n]
    simp [low]
  · have high : ¬ i < 32 - n := by omega
    have out : x.getLsbD (n + i) = false := BitVec.getLsbD_of_ge x _ (by omega)
    have wrapped : (i + n) % 32 = i - (32 - n) := by omega
    simp [hi, high, out, wrapped]

/-- SHR divides by a power of two (R8). -/
theorem toNat_shr (x : Word) (n : Nat) : (shr x n).toNat = x.toNat / 2 ^ n := by
  rw [shr, BitVec.toNat_ushiftRight, Nat.shiftRight_eq_div_pow]

/-- Settles O9, bit by bit for the rotation and as a number for the shift. -/
theorem rotationAndShift : Obligations.RotationAndShift :=
  fun x n _ hn => ⟨fun _ hi => getLsbD_rotr x hn hi, toNat_shr x n⟩

end Sys2Proof.Machine
end

section
/-! PROOFS. Cutting a byte sequence into blocks, absorbing data, and padding: what COMPRESS is given
(rules R26, R52, R53, R58 to R65). -/

namespace Sys2Proof.Machine

/-! ### Blocks -/

/-- Every byte sequence is some 64-byte blocks put before a sequence shorter than a block. -/
theorem block_induction {P : List Byte → Prop} (short : ∀ m : List Byte, m.length < 64 → P m)
    (more : ∀ x m : List Byte, x.length = 64 → P m → P (x ++ m)) (m : List Byte) : P m := by
  by_cases h : m.length < 64
  · exact short m h
  · have hx : (m.take 64).length = 64 := by rw [List.length_take]; omega
    rw [← List.take_append_drop 64 m]
    exact more _ _ hx (block_induction short more (m.drop 64))
termination_by m.length
decreasing_by rw [List.length_drop]; omega

/-- Data after a message only meets the bytes the message's full blocks leave over. -/
theorem blocks_append (m data : List Byte) :
    blocks (m ++ data) = blocks m ++ blocks (messageTail m ++ data) := by
  induction m using block_induction with
  | short m hm => rw [blocks_of_short hm, messageTail_of_short hm, List.nil_append]
  | more x m hx ih =>
    rw [List.append_assoc, blocks_block_append _ _ hx, ih, blocks_block_append _ _ hx,
      messageTail_block_append _ _ hx, List.cons_append]

theorem messageTail_append (m data : List Byte) :
    messageTail (m ++ data) = messageTail (messageTail m ++ data) := by
  induction m using block_induction with
  | short m hm => rw [messageTail_of_short hm]
  | more x m hx ih =>
    rw [List.append_assoc, messageTail_block_append _ _ hx, ih, messageTail_block_append _ _ hx]

@[simp] theorem messageTail_length (m : List Byte) : (messageTail m).length = m.length % 64 := by
  rw [messageTail, List.length_drop]; omega

theorem length_of_mem_blocks {m b : List Byte} (h : b ∈ blocks m) : b.length = 64 := by
  obtain ⟨k, hk, rfl⟩ := List.mem_map.mp h
  have hk : k < m.length / 64 := List.mem_range.mp hk
  rw [List.length_take, List.length_drop]; omega

/-! ### Absorbing -/

theorem pendingBytes_short (c : Context) : (pendingBytes c).length < 64 := by
  rw [pendingBytes_length]; exact c.bufLen.isLt

/-- Absorbing compresses the full blocks of the buffer and the data, and the buffer keeps the rest: the
ABSORB of each byte either grows the rest or completes a block (R52, R53). -/
theorem absorbAll_blocks (data : List Byte) : ∀ c : Context,
    (absorbAll c data).h = compressAll c.h (blocks (pendingBytes c ++ data)) ∧
    pendingBytes (absorbAll c data) = messageTail (pendingBytes c ++ data) := by
  induction data with
  | nil =>
    intro c
    rw [List.append_nil, blocks_of_short (pendingBytes_short c),
      messageTail_of_short (pendingBytes_short c)]
    exact ⟨rfl, rfl⟩
  | cons b data ih =>
    intro c
    obtain ⟨hh, hp⟩ := ih (absorb c b)
    rw [absorbAll_cons, hh, hp, List.append_cons]
    by_cases room : c.bufLen.val < 63
    · obtain ⟨hh, -, hp⟩ := absorb_of_room b room
      rw [hh, hp]
      exact ⟨rfl, rfl⟩
    · have full : c.bufLen.val = 63 := by omega
      have hlen : (pendingBytes c ++ [b]).length = 64 := by simp [full]
      obtain ⟨hh, -, hp⟩ := absorb_of_full b full
      rw [hh, hp, blocks_block_append _ _ hlen, messageTail_block_append _ _ hlen]
      exact ⟨rfl, rfl⟩

theorem updateContext_h_blocks (c : Context) (data : List Byte) :
    (updateContext c data).h = compressAll c.h (blocks (pendingBytes c ++ data)) :=
  (absorbAll_blocks data c).1

theorem pendingBytes_updateContext (c : Context) (data : List Byte) :
    pendingBytes (updateContext c data) = messageTail (pendingBytes c ++ data) :=
  (absorbAll_blocks data c).2

theorem updateContext_bufLen_val (c : Context) (data : List Byte) :
    (updateContext c data).bufLen.val = (c.bufLen.val + data.length) % 64 := by
  rw [← pendingBytes_length, pendingBytes_updateContext]; simp

/-- The count of an UPDATE within the bound does not wrap (R52, R89). -/
theorem toNat_updateContext_totalLen {c : Context} {data : List Byte}
    (h : c.totalLen.toNat + data.length ≤ Config.maxMsgBytes) :
    (updateContext c data).totalLen.toNat = c.totalLen.toNat + data.length := by
  have small : Config.maxMsgBytes < 2 ^ 64 := by decide
  rw [updateContext_totalLen, BitVec.toNat_add, BitVec.toNat_ofNat]
  omega

@[simp] theorem pendingBytes_startContext (c : Context) : pendingBytes (startContext c) = [] :=
  pendingBytes_of_empty rfl

@[simp] theorem pendingBytes_finalContext (c : Context) : pendingBytes (finalContext c) = [] :=
  pendingBytes_of_empty rfl

/-! ### Padding -/

theorem padBytes_length {tail : List Byte} (total : BitVec 64) (h : tail.length ≤ 63) :
    (padBytes tail total).length = if tail.length ≤ 55 then 64 else 128 := by
  simp only [padBytes, List.length_append, List.length_cons, List.length_nil, List.length_replicate,
    bytes64_length]
  split
  · rw [zeroFill_of_le ‹_›]; omega
  · rw [zeroFill_of_gt (by omega) h]; omega

/-- PAD's blocks are the blocks of the padded tail (R59). -/
theorem blocks_padBytes {tail : List Byte} (total : BitVec 64) (h : tail.length ≤ 63) :
    blocks (padBytes tail total) = pad tail total := by
  have hlen := padBytes_length total h
  by_cases one : tail.length ≤ 55
  · rw [if_pos one] at hlen
    simp [pad, blocks, hlen]
  · rw [if_neg one] at hlen
    simp [pad, blocks, hlen, List.range_succ]

theorem length_of_mem_pad {tail b : List Byte} {total : BitVec 64} (h : tail.length ≤ 63)
    (hb : b ∈ pad tail total) : b.length = 64 :=
  length_of_mem_blocks (blocks_padBytes total h ▸ hb)

/-- Full blocks do not change the zero fill (R60). -/
theorem zeroFill_mod (l : Nat) : zeroFill (l % 64) = zeroFill l := by
  unfold zeroFill; omega

/-- What is left of a padded message after its full blocks is its padded tail (R65). -/
theorem messageTail_append_padding (m : List Byte) :
    messageTail m ++ padding m.length = padBytes (messageTail m) (BitVec.ofNat 64 m.length) := by
  have count : BitVec.ofNat 64 m.length * 8 = BitVec.ofNat 64 (8 * m.length) := by
    rw [Nat.mul_comm, BitVec.ofNat_mul]; rfl
  rw [padBytes, padding, messageTail_length, zeroFill_mod, count]
  simp only [List.append_assoc]

/-- The blocks of a padded message: the message's own, then those of PAD (R65). -/
theorem blocks_append_padding (m : List Byte) :
    blocks (m ++ padding m.length) =
      blocks m ++ pad (messageTail m) (BitVec.ofNat 64 m.length) := by
  have short : (messageTail m).length ≤ 63 := by rw [messageTail_length]; omega
  rw [blocks_append, messageTail_append_padding, blocks_padBytes _ short]

end Sys2Proof.Machine
end

section
/-! PROOFS. What one step does, in the forms the statements about the state need: an equation for each
case of a meaning and of a step, and the inversion of a step's effect on the context. -/

namespace Sys2Proof.Machine

/-! ### The meanings, case by case -/

theorem execUpdate_of_uninit {s : State} (data : List Byte) (h : s.ctx.lifecycle = .uninit) :
    execUpdate data s = .next (respond (.error .notInitialized) s) := by
  simp [execUpdate, h, raise_eq]

theorem execUpdate_of_finalized {s : State} (data : List Byte) (h : s.ctx.lifecycle = .finalized) :
    execUpdate data s = .next (respond (.error .updateAfterFinal) s) := by
  simp [execUpdate, h, raise_eq]

theorem execUpdate_of_overflow {s : State} {data : List Byte} (live : Live s.ctx)
    (h : Config.maxMsgBytes < s.ctx.totalLen.toNat + data.length) :
    execUpdate data s = .next (respond (.error .lengthOverflow) s) := by
  rcases live with hl | hl <;> simp [execUpdate, hl, h, raise_eq]

theorem execUpdate_of_fits {s : State} {data : List Byte} (live : Live s.ctx)
    (h : s.ctx.totalLen.toNat + data.length ≤ Config.maxMsgBytes) :
    execUpdate data s = .next (respond .ok { s with ctx := updateContext s.ctx data }) := by
  rcases live with hl | hl <;> simp [execUpdate, hl, Nat.not_lt.mpr h]

theorem execFinal_of_uninit {s : State} (h : s.ctx.lifecycle = .uninit) :
    execFinal s = .next (respond (.error .notInitialized) s) := by
  simp [execFinal, h, raise_eq]

theorem execFinal_of_finalized {s : State} (h : s.ctx.lifecycle = .finalized) :
    execFinal s = .next (respond (.error .finalAfterFinal) s) := by
  simp [execFinal, h, raise_eq]

theorem execFinal_of_live {s : State} (live : Live s.ctx) :
    execFinal s = .next (respond (.digest (serialize (finalContext s.ctx).h))
      { s with ctx := finalContext s.ctx }) := by
  rcases live with hl | hl <;> simp [execFinal, hl]

/-- Only an error has an error's status byte (R47). -/
theorem eq_error_of_statusByte {r : Response} {e : ErrorCode}
    (h : statusByte r = 0x80 ||| errorCode e) : ∃ e', r = .error e' := by
  cases r with
  | error e' => exact ⟨e', rfl⟩
  | ok => cases e <;> exact absurd h (by decide)
  | digest d =>
    have h : (0x01 : Byte) = 0x80 ||| errorCode e := h
    cases e <;> exact absurd h (by decide)

/-! ### The step, case by case -/

section
variable {s : State}

/-- A waiting core (R45, R101). -/
theorem step_of_wait (hd : decode (s.held ++ leadingBytes s.input) = .hold)
    (ha : afterBytes s.input = []) :
    step s = .next { s with held := s.held ++ leadingBytes s.input, input := [] } := by
  simp [step, fetch, hd, ha, waitForBytes]

/-- A reset that ends a wait (R99). -/
theorem step_of_reset {more : List Input} (hd : decode (s.held ++ leadingBytes s.input) = .hold)
    (ha : afterBytes s.input = .reset :: more ∨ afterBytes s.input = .resetBusy :: more) :
    step s = .next (hardwareReset { s with input := more }) := by
  rcases ha with ha | ha <;> simp [step, fetch, hd, ha, waitForBytes]

/-- A reset that abandons the command being performed (R99). -/
theorem step_of_resetBusy {i : Instr} {more : List Input}
    (hd : decode (s.held ++ leadingBytes s.input) = .command i [])
    (ha : afterBytes s.input = .resetBusy :: more) :
    step s = .next (hardwareReset { s with input := more }) := by
  simp [step, fetch, hd, ha, takeCommand]

/-- A command performed (R34, R43). -/
theorem step_of_command {i : Instr} {rest : List Byte}
    (hd : decode (s.held ++ leadingBytes s.input) = .command i rest)
    (ha : rest = [] → ∀ more, afterBytes s.input ≠ .resetBusy :: more) :
    step s = exec i { s with held := [], input := rest.map Input.byte ++ afterBytes s.input } := by
  rcases step_cases s with ⟨hd', -⟩ | ⟨_, hd', -⟩ | ⟨_, more, hd', ha', -⟩ | ⟨_, _, hd', -, he⟩
  · exact nomatch hd.symm.trans hd'
  · exact nomatch hd.symm.trans hd'
  · cases hd.symm.trans hd'
    exact absurd ha' (ha rfl more)
  · cases hd.symm.trans hd'
    exact he

end

/-- What a step can do to the context: leave it, reset it, or the effect of an INIT, an UPDATE or a FINAL
that succeeds. -/
theorem step_ctx_cases {s t : State} (h : step s = .next t) :
    t.ctx = s.ctx ∨
    (t.ctx = Context.reset ∧
      ∃ more, afterBytes s.input = .reset :: more ∨ afterBytes s.input = .resetBusy :: more) ∨
    (t.ctx = startContext s.ctx ∧
      ∃ rest, decode (s.held ++ leadingBytes s.input) = .command .init rest) ∨
    (∃ data, t.ctx = updateContext s.ctx data ∧ Live s.ctx ∧
      s.ctx.totalLen.toNat + data.length ≤ Config.maxMsgBytes) ∨
    (t.ctx = finalContext s.ctx ∧ Live s.ctx) := by
  rcases step_cases s with ⟨-, -, he⟩ | ⟨more, -, ha, he⟩ | ⟨_, more, -, ha, he⟩ | ⟨i, rest, hd, -, he⟩
  · cases h.symm.trans he
    exact .inl rfl
  · cases h.symm.trans he
    exact .inr (.inl ⟨rfl, more, ha⟩)
  · cases h.symm.trans he
    exact .inr (.inl ⟨rfl, more, .inr ha⟩)
  · obtain ⟨c, r, hx, hc⟩ := exec_cases i
      { s with held := [], input := rest.map Input.byte ++ afterBytes s.input }
    cases (h.symm.trans he).trans hx
    rcases hc with ⟨_, -, hc⟩ | ⟨rfl, -, hc⟩ | ⟨data, -, -, hc, live, fits⟩ | ⟨-, -, hc, live⟩
    · exact .inl hc
    · exact .inr (.inr (.inl ⟨hc, rest, hd⟩))
    · exact .inr (.inr (.inr (.inl ⟨data, hc, live, fits⟩)))
    · exact .inr (.inr (.inr (.inr ⟨hc, live⟩)))

/-- A property of contexts that a reset gives, and INIT, UPDATE and FINAL keep, is kept by every step. -/
theorem step_keeps_ctx {P : Context → Prop} (reset : P Context.reset)
    (start : ∀ c, P (startContext c))
    (update : ∀ c data, P c → Live c → c.totalLen.toNat + data.length ≤ Config.maxMsgBytes →
      P (updateContext c data))
    (final : ∀ c, P c → Live c → P (finalContext c))
    {s t : State} (hs : P s.ctx) (h : step s = .next t) : P t.ctx := by
  rcases step_ctx_cases h with hc | ⟨hc, -⟩ | ⟨hc, -⟩ | ⟨data, hc, live, fits⟩ | ⟨hc, live⟩ <;> rw [hc]
  · exact hs
  · exact reset
  · exact start _
  · exact update _ data hs live fits
  · exact final _ hs live

theorem not_live_of_uninit {c : Context} (h : c.lifecycle = .uninit) : ¬ Live c := by
  simp [Live, h]

theorem not_live_of_finalized {c : Context} (h : c.lifecycle = .finalized) : ¬ Live c := by
  simp [Live, h]

theorem Live.ne_uninit {c : Context} (live : Live c) : c.lifecycle ≠ .uninit :=
  fun h => not_live_of_uninit h live

end Sys2Proof.Machine
end

section
/-! PROOFS. The invariants of the context: its counters agree, and it stands for a message. -/

namespace Sys2Proof.Machine

/-! ### Counters -/

/-- In UNINIT nothing is asked of the counters (R98). -/
theorem countersAgree_of_uninit {c : Context} (h : c.lifecycle = .uninit) : CountersAgree c where
  bounded := fun hne => absurd h hne
  pending := fun live => absurd live (not_live_of_uninit h)
  fresh := fun hi => nomatch h.symm.trans hi
  closed := fun hf => nomatch h.symm.trans hf

theorem countersAgree_startContext (c : Context) : CountersAgree (startContext c) where
  bounded := fun _ => Nat.zero_le _
  pending := fun _ => rfl
  fresh := fun _ => ⟨rfl, rfl⟩
  closed := fun hf => nomatch hf

theorem CountersAgree.update {c : Context} {data : List Byte} (h : CountersAgree c) (live : Live c)
    (fits : c.totalLen.toNat + data.length ≤ Config.maxMsgBytes) :
    CountersAgree (updateContext c data) where
  bounded := fun _ => toNat_updateContext_totalLen fits ▸ fits
  pending := fun _ => by
    rw [updateContext_bufLen_val, toNat_updateContext_totalLen fits, h.pending live, Nat.mod_add_mod]
  fresh := fun hi => nomatch hi
  closed := fun hf => nomatch hf

theorem CountersAgree.final {c : Context} (h : CountersAgree c) (live : Live c) :
    CountersAgree (finalContext c) where
  bounded := fun _ => h.bounded live.ne_uninit
  pending := fun live' => absurd live' (not_live_of_finalized rfl)
  fresh := fun hi => nomatch hi
  closed := fun _ => rfl

/-- Settles O53: INIT, UPDATE and FINAL keep the counters in agreement, and so does a reset. -/
theorem stepKeepsCounters : Obligations.StepKeepsCounters :=
  fun _ _ => step_keeps_ctx (countersAgree_of_uninit rfl) countersAgree_startContext
    (fun _ _ => CountersAgree.update) (fun _ => CountersAgree.final)

/-! ### The message -/

/-- INIT's context holds the empty message (R51). -/
theorem holdsMessage_startContext (c : Context) : HoldsMessage [] (startContext c) where
  live := .inl rfl
  bounded := Nat.zero_le _
  counted := rfl
  chained := rfl
  pending := pendingBytes_startContext c

/-- An UPDATE within the bound appends its data (R34, R52). -/
theorem HoldsMessage.update {c : Context} {m data : List Byte} (h : HoldsMessage m c)
    (fits : c.totalLen.toNat + data.length ≤ Config.maxMsgBytes) :
    HoldsMessage (m ++ data) (updateContext c data) where
  live := .inr rfl
  bounded := by rwa [List.length_append, ← h.counted]
  counted := by rw [toNat_updateContext_totalLen fits, h.counted, List.length_append]
  chained := by
    rw [updateContext_h_blocks, h.chained, h.pending, ← compressAll_append, ← blocks_append]
  pending := by rw [pendingBytes_updateContext, h.pending, ← messageTail_append]

/-- FINAL's chaining value serializes to the digest of the message: PAD makes the blocks that are left of the
padded message (R54, R58, R65). -/
theorem HoldsMessage.serialize_finalContext {c : Context} {m : List Byte} (h : HoldsMessage m c) :
    serialize (finalContext c).h = sha256 m := by
  have total : c.totalLen = BitVec.ofNat 64 m.length := by
    rw [← h.counted, BitVec.ofNat_toNat, BitVec.setWidth_eq]
  rw [finalContext_h, h.chained, h.pending, total, sha256, blocks_append_padding, compressAll_append]

/-- In UNINIT the context stands for nothing (R98). -/
theorem standsForMessage_of_uninit {c : Context} (h : c.lifecycle = .uninit) : StandsForMessage c where
  live := fun live => absurd live (not_live_of_uninit h)
  closed := fun hf => nomatch h.symm.trans hf

theorem HoldsMessage.standsForMessage {c : Context} {m : List Byte} (h : HoldsMessage m c) :
    StandsForMessage c where
  live := fun _ => ⟨m, h⟩
  closed := fun hf => absurd h.live (not_live_of_finalized hf)

theorem StandsForMessage.update {c : Context} {data : List Byte} (h : StandsForMessage c) (live : Live c)
    (fits : c.totalLen.toNat + data.length ≤ Config.maxMsgBytes) :
    StandsForMessage (updateContext c data) := by
  obtain ⟨m, hm⟩ := h.live live
  exact (hm.update fits).standsForMessage

theorem StandsForMessage.final {c : Context} (h : StandsForMessage c) (live : Live c) :
    StandsForMessage (finalContext c) where
  live := fun live' => absurd live' (not_live_of_finalized rfl)
  closed := fun _ => by
    obtain ⟨m, hm⟩ := h.live live
    exact ⟨m, hm.bounded, hm.counted, hm.serialize_finalContext⟩

/-- Settles O56: INIT starts the empty message, UPDATE extends it, FINAL leaves its digest, and a reset
leaves no message to stand for. -/
theorem stepKeepsMessage : Obligations.StepKeepsMessage :=
  fun _ _ => step_keeps_ctx (standsForMessage_of_uninit rfl)
    (fun c => (holdsMessage_startContext c).standsForMessage)
    (fun _ _ => StandsForMessage.update) (fun _ => StandsForMessage.final)

end Sys2Proof.Machine
end

section
/-! PROOFS. The fields without a value are not observed (rules R14, R16, R98): each command, and so each
step, answers the same from contexts that cannot be told apart, and leaves such contexts. -/

namespace Sys2Proof.Machine

/-! ### Contexts -/

theorem Indistinct.live {c d : Context} (h : Indistinct c d) (live : Live c) : Live d := by
  rwa [Live, ← h.lifecycle]

/-- INIT writes every field that holds a value after it (R51). -/
theorem indistinct_startContext (c d : Context) : Indistinct (startContext c) (startContext d) where
  lifecycle := rfl
  valued := fun _ => ⟨rfl, rfl, rfl, by simp⟩

theorem Indistinct.update {c d : Context} (h : Indistinct c d) (live : Live c) (data : List Byte) :
    Indistinct (updateContext c data) (updateContext d data) := by
  obtain ⟨hh, hlen, htotal, hpending⟩ := h.valued live.ne_uninit
  refine ⟨rfl, fun _ => ⟨?_, Fin.ext ?_, ?_, ?_⟩⟩
  · rw [updateContext_h_blocks, updateContext_h_blocks, hh, hpending]
  · rw [updateContext_bufLen_val, updateContext_bufLen_val, hlen]
  · rw [updateContext_totalLen, updateContext_totalLen, htotal]
  · rw [pendingBytes_updateContext, pendingBytes_updateContext, hpending]

theorem Indistinct.finalContext_h_eq {c d : Context} (h : Indistinct c d) (live : Live c) :
    (finalContext c).h = (finalContext d).h := by
  obtain ⟨hh, -, htotal, hpending⟩ := h.valued live.ne_uninit
  rw [finalContext_h, finalContext_h, hh, htotal, hpending]

theorem Indistinct.final {c d : Context} (h : Indistinct c d) (live : Live c) :
    Indistinct (finalContext c) (finalContext d) where
  lifecycle := rfl
  valued := fun _ => by
    obtain ⟨-, -, htotal, -⟩ := h.valued live.ne_uninit
    exact ⟨h.finalContext_h_eq live, rfl, htotal, by simp⟩

/-! ### Commands and steps -/

section
variable {s t : State}

/-- The same response to two states that cannot be told apart leaves two such states. -/
theorem IndistinctStates.respond (h : IndistinctStates s t) (r : Response) {c d : Context}
    (hc : Indistinct c d) :
    IndistinctStates (respond r { s with ctx := c }) (respond r { t with ctx := d }) where
  ctx := hc
  held := h.held
  input := h.input
  resp := congrArg (· ++ responseBytes r) h.resp

/-- A command takes the same branch in both states, since a branch depends on LIFECYCLE, and on TOTAL_LEN
only where it holds a value. -/
theorem exec_indistinct (i : Instr) (h : IndistinctStates s t) :
    ∃ s' t', exec i s = .next s' ∧ exec i t = .next t' ∧ IndistinctStates s' t' := by
  have hl := h.ctx.lifecycle
  cases i with
  | init => exact ⟨_, _, rfl, rfl, h.respond _ (indistinct_startContext _ _)⟩
  | reserved op => exact ⟨_, _, rfl, rfl, h.respond _ h.ctx⟩
  | update data =>
    rcases execUpdate_cases data s with ⟨hu, he⟩ | ⟨hf, he⟩ | ⟨live, long, he⟩ | ⟨live, fits, he⟩
    · exact ⟨_, _, he, execUpdate_of_uninit data (hl ▸ hu), h.respond _ h.ctx⟩
    · exact ⟨_, _, he, execUpdate_of_finalized data (hl ▸ hf), h.respond _ h.ctx⟩
    · obtain ⟨-, -, htotal, -⟩ := h.ctx.valued (Live.ne_uninit live)
      exact ⟨_, _, he, execUpdate_of_overflow (h.ctx.live live) (htotal ▸ long), h.respond _ h.ctx⟩
    · obtain ⟨-, -, htotal, -⟩ := h.ctx.valued (Live.ne_uninit live)
      exact ⟨_, _, he, execUpdate_of_fits (h.ctx.live live) (htotal ▸ fits),
        h.respond _ (h.ctx.update live data)⟩
  | final =>
    rcases execFinal_cases s with ⟨hu, he⟩ | ⟨hf, he⟩ | ⟨live, he⟩
    · exact ⟨_, _, he, execFinal_of_uninit (hl ▸ hu), h.respond _ h.ctx⟩
    · exact ⟨_, _, he, execFinal_of_finalized (hl ▸ hf), h.respond _ h.ctx⟩
    · exact ⟨_, _, he, execFinal_of_live (h.ctx.live live),
        h.ctx.finalContext_h_eq live ▸ h.respond _ (h.ctx.final live)⟩

/-- A step finds the same to do in both states, since that depends on the streams and the decoder alone. -/
theorem step_indistinct (h : IndistinctStates s t) :
    ∃ s' t', step s = .next s' ∧ step t = .next t' ∧ IndistinctStates s' t' := by
  have hctx := h.ctx
  have hresp := h.resp
  rcases step_cases s with ⟨hd, ha, he⟩ | ⟨more, hd, ha, he⟩ | ⟨i, more, hd, ha, he⟩ |
      ⟨i, rest, hd, ha, he⟩ <;> rw [h.held, h.input] at hd <;> rw [h.input] at ha
  · exact ⟨_, _, he, step_of_wait hd ha, hctx, by rw [h.held, h.input], rfl, hresp⟩
  · exact ⟨_, _, he, step_of_reset hd ha, ⟨rfl, fun hne => absurd rfl hne⟩, rfl, rfl, rfl⟩
  · exact ⟨_, _, he, step_of_resetBusy hd ha, ⟨rfl, fun hne => absurd rfl hne⟩, rfl, rfl, rfl⟩
  · rw [he, step_of_command hd ha]
    exact exec_indistinct i ⟨hctx, rfl, by rw [h.input], hresp⟩

end

/-- Settles O50, by the branches of a step and of a command. -/
theorem unvaluedStateNeverObserved : Obligations.UnvaluedStateNeverObserved := by
  intro s t s' h hs
  obtain ⟨_, t', hs', ht, h'⟩ := step_indistinct h
  cases hs.symm.trans hs'
  exact ⟨t', ht, h'⟩

end Sys2Proof.Machine
end

section
/-! PROOFS. Which writes H gets, what leaves FINALIZED, and that cores share nothing (rules R14, R17, R23). -/

namespace Sys2Proof.Machine

/-! ### The chaining value -/

theorem execUpdate_h {s t : State} {data : List Byte} (h : execUpdate data s = .next t) :
    t.ctx.h = compressAll s.ctx.h
      (if (s.ctx.lifecycle = .init ∨ s.ctx.lifecycle = .updating) ∧
          s.ctx.totalLen.toNat + data.length ≤ Config.maxMsgBytes
        then blocks (pendingBytes s.ctx ++ data) else []) := by
  rcases execUpdate_cases data s with ⟨hu, he⟩ | ⟨hf, he⟩ | ⟨-, long, he⟩ | ⟨live, fits, he⟩ <;>
    cases h.symm.trans he
  · simp [hu]
  · simp [hf]
  · simp [Nat.not_le.mpr long]
  · rw [if_pos ⟨live, fits⟩]; exact updateContext_h_blocks s.ctx data

theorem execFinal_h_totalLen {s t : State} (h : execFinal s = .next t) :
    t.ctx.h = compressAll s.ctx.h
      (if s.ctx.lifecycle = .init ∨ s.ctx.lifecycle = .updating
        then pad (pendingBytes s.ctx) s.ctx.totalLen else []) ∧
    t.ctx.totalLen = s.ctx.totalLen := by
  rcases execFinal_cases s with ⟨hu, he⟩ | ⟨hf, he⟩ | ⟨live, he⟩ <;> cases h.symm.trans he
  · simp [hu]
  · simp [hf]
  · rw [if_pos live]; exact ⟨rfl, rfl⟩

/-- A command that answers an error leaves the context (R90). -/
theorem exec_ctx_of_error {i : Instr} {e : ErrorCode} {s t : State} (h : exec i s = .next t)
    (herr : t.resp = s.resp ++ [0x80 ||| errorCode e]) : t.ctx = s.ctx := by
  obtain ⟨c, r, hx, hc⟩ := exec_cases i s
  cases h.symm.trans hx
  have bytes : statusByte r :: payload r = [0x80 ||| errorCode e] := List.append_cancel_left herr
  obtain ⟨e', rfl⟩ := eq_error_of_statusByte (List.cons.inj bytes).1
  rcases hc with ⟨-, -, hc⟩ | ⟨-, hr, -⟩ | ⟨-, -, hr, -⟩ | ⟨-, hr, -⟩
  · exact hc
  · exact nomatch hr
  · exact nomatch hr
  · exact nomatch hr

/-- Settles O35, a clause for each command, one for the errors and two for the lengths of the blocks. -/
theorem chainingValueOnlyCompressed : Obligations.ChainingValueOnlyCompressed := by
  intro s t
  refine ⟨?init, fun data => execUpdate_h, execFinal_h_totalLen, ?reserved,
    fun i e h herr => congrArg Context.h (exec_ctx_of_error h herr),
    fun data b => length_of_mem_blocks,
    fun b => length_of_mem_pad (Nat.le_of_lt_succ (pendingBytes_short s.ctx))⟩
  case init =>
    intro h
    cases h
    rfl
  case reserved =>
    intro op h
    cases h
    rfl

/-! ### Leaving FINALIZED -/

/-- Settles O51: of all that a step can do to the context, an UPDATE or a FINAL succeeds in INIT and UPDATING
only. -/
theorem onlyInitOrResetLeavesFinalized : Obligations.OnlyInitOrResetLeavesFinalized := by
  intro s t hf h hleft
  rcases step_ctx_cases h with hc | ⟨hc, hreset⟩ | ⟨hc, hinit⟩ | ⟨_, _, live, _⟩ | ⟨_, live⟩
  · exact absurd (hc ▸ hf) hleft
  · exact .inr ⟨by rw [hc]; rfl, hreset⟩
  · exact .inl ⟨by rw [hc]; rfl, hinit⟩
  · exact absurd live (not_live_of_finalized hf)
  · exact absurd live (not_live_of_finalized hf)

/-! ### Cores -/

/-- A step of core `k` reads and writes core `k` alone: on every platform that has the same core `k` it
puts the same state there (R23, R95). -/
theorem platformStep_local {k : Nat} {p q : Platform} (h : platformStep k p = .next q) :
    ∃ t : State, ∀ p' : Platform, p'.cores[k]? = p.cores[k]? →
      platformStep k p' = .next ⟨p'.cores.set k t⟩ := by
  unfold platformStep at h
  cases hk : p.cores[k]? with
  | none =>
    refine ⟨State.reset, fun p' hp' => ?_⟩
    rw [platformStep, hp', List.set_eq_of_length_le (List.getElem?_eq_none_iff.mp hp')]
  | some s =>
    rw [hk] at h
    cases hs : step s with
    | next t => exact ⟨t, fun p' hp' => by rw [platformStep, hp']; simp only [hs]⟩
    | fault r => exact nomatch r
    | refused r => simp [hs] at h

/-- Settles O58: two cores are two places of a list, and setting one commutes with setting the other. -/
theorem coresAreIndependent : Obligations.CoresAreIndependent := by
  refine ⟨fun n k hk => ?_, fun p q k j hq hjk => ?_, fun p q r k j hjk hq hr => ?_⟩
  · simp [platformReset, hk]
  · obtain ⟨t, ht⟩ := platformStep_local hq
    cases hq.symm.trans (ht p rfl)
    exact ⟨List.getElem?_set_ne hjk.symm, List.length_set⟩
  · obtain ⟨a, ha⟩ := platformStep_local hq
    obtain ⟨b, hb⟩ := platformStep_local hr
    cases hq.symm.trans (ha p rfl)
    cases hr.symm.trans (hb p rfl)
    refine ⟨_, hb _ (List.getElem?_set_ne hjk.symm), ?_⟩
    rw [ha _ (List.getElem?_set_ne hjk), List.set_comm _ _ hjk]

end Sys2Proof.Machine
end

section
/-! PROOFS. What every command leaves of the state and adds to it (rules R34, R46 to R48): one legal
response; it leaves the decoder and the input, and does not read the input. -/

namespace Sys2Proof.Machine

@[simp] theorem serialize_length (h : Vector Word 8) : (serialize h).length = 32 := by
  simp [serialize]

/-- Every response has one of the seven status bytes (R46, R47, R83). -/
theorem statusByte_mem (r : Response) :
    statusByte r ∈ ([0x00, 0x01, 0x81, 0x82, 0x83, 0x84, 0x85] : List Byte) := by
  cases r with
  | ok => decide
  | digest d => exact .tail _ (.head _)
  | error e => cases e <;> decide

/-- A command answers a response that is legal and of its own kind, and writes nothing but the context and
that response. -/
theorem exec_responds (i : Instr) (s : State) : ∃ (c : Context) (r : Response),
    exec i s = .next (respond r { s with ctx := c }) ∧ LegalResponse r ∧
    (r = .ok → i = .init ∨ ∃ data, i = .update data) ∧ ((∃ d, r = .digest d) → i = .final) := by
  obtain ⟨c, r, he, hc⟩ := exec_cases i s
  refine ⟨c, r, he, ?_⟩
  rcases hc with ⟨e, rfl, -⟩ | ⟨rfl, rfl, -⟩ | ⟨data, rfl, rfl, -⟩ | ⟨rfl, rfl, -⟩
  · exact ⟨trivial, nofun, nofun⟩
  · exact ⟨trivial, fun _ => .inl rfl, nofun⟩
  · exact ⟨trivial, fun _ => .inr ⟨data, rfl⟩, nofun⟩
  · exact ⟨serialize_length _, nofun, fun _ => rfl⟩

/-- Settles O36, by the response of each command. -/
theorem oneResponsePerCommand : Obligations.OneResponsePerCommand := by
  intro i s
  obtain ⟨c, r, he, legal, hok, hdigest⟩ := exec_responds i s
  exact ⟨_, r, he, rfl, legal, statusByte_mem r, hok, hdigest, rfl, rfl⟩

/-- A command is always performed to its end, and leaves the decoder and the input (R34). -/
theorem exec_next (i : Instr) (s : State) :
    ∃ t : State, exec i s = .next t ∧ t.held = s.held ∧ t.input = s.input := by
  obtain ⟨c, r, he, -⟩ := exec_cases i s
  exact ⟨_, he, rfl, rfl⟩

/-- A command does not read what is still to be delivered (R34). -/
theorem exec_withInput {i : Instr} {s t : State} (inp : List Input) (h : exec i s = .next t) :
    exec i { s with input := inp } = .next { t with input := inp } := by
  cases i with
  | init => cases h; rfl
  | reserved op => cases h; rfl
  | update data =>
    rcases execUpdate_cases data s with ⟨hu, he⟩ | ⟨hf, he⟩ | ⟨live, long, he⟩ | ⟨live, fits, he⟩ <;>
      cases h.symm.trans he
    · exact execUpdate_of_uninit (s := { s with input := inp }) data hu
    · exact execUpdate_of_finalized (s := { s with input := inp }) data hf
    · exact execUpdate_of_overflow (s := { s with input := inp }) live long
    · exact execUpdate_of_fits (s := { s with input := inp }) live fits
  | final =>
    rcases execFinal_cases s with ⟨hu, he⟩ | ⟨hf, he⟩ | ⟨live, he⟩ <;> cases h.symm.trans he
    · exact execFinal_of_uninit (s := { s with input := inp }) hu
    · exact execFinal_of_finalized (s := { s with input := inp }) hf
    · exact execFinal_of_live (s := { s with input := inp }) live

end Sys2Proof.Machine
end

section
/-! PROOFS. The commands on a context that holds a message, and a whole message streamed through INIT,
UPDATEs and FINAL (rules R34, R57, R58). -/

namespace Sys2Proof.Machine

/-! ### One command -/

section
variable {s : State} {m : List Byte}

/-- An UPDATE that fits the message held succeeds (R52, R89). -/
theorem HoldsMessage.exec_update (h : HoldsMessage m s.ctx) {data : List Byte}
    (fits : m.length + data.length ≤ Config.maxMsgBytes) :
    exec (.update data) s = .next (respond .ok { s with ctx := updateContext s.ctx data }) :=
  execUpdate_of_fits h.live (h.counted.symm ▸ fits)

/-- FINAL answers with the digest of the message held (R54, R58). -/
theorem HoldsMessage.exec_final (h : HoldsMessage m s.ctx) :
    exec .final s = .next (respond (.digest (sha256 m)) { s with ctx := finalContext s.ctx }) :=
  h.serialize_finalContext ▸ execFinal_of_live h.live

end

/-- Settles O38: the UPDATE fits, so it succeeds, and its context holds the longer message. -/
theorem updateExtendsMessage : Obligations.UpdateExtendsMessage :=
  fun _ _ _ h fits => ⟨_, h.exec_update fits, h.update (h.counted.symm ▸ fits)⟩

/-! ### Several commands -/

theorem performAll_cons {i : Instr} {s t : State} (cmds : List Instr) (h : exec i s = .next t) :
    performAll (i :: cmds) s = performAll cmds t := by
  rw [performAll, h]

/-- The commands after some that ended in `t` go on from `t` (R34). -/
theorem performAll_append {cmds : List Instr} (more : List Instr) {s t : State}
    (h : performAll cmds s = .next t) : performAll (cmds ++ more) s = performAll more t := by
  induction cmds generalizing s with
  | nil => cases h; rfl
  | cons i cmds ih =>
    obtain ⟨u, he, -⟩ := exec_next i s
    rw [performAll_cons _ he] at h
    rw [List.cons_append, performAll_cons _ he, ih h]

/-- UPDATEs of pieces that together fit the message held all succeed, and append the pieces in order
(R34, R52). -/
theorem HoldsMessage.performAll_updates {s : State} {m : List Byte} (h : HoldsMessage m s.ctx)
    (pieces : List (List Byte)) (fits : m.length + pieces.flatten.length ≤ Config.maxMsgBytes) :
    ∃ t : State, performAll (pieces.map Instr.update) s = .next t ∧
      HoldsMessage (m ++ pieces.flatten) t.ctx ∧
      t.resp = s.resp ++ List.replicate pieces.length 0x00 := by
  induction pieces generalizing s m with
  | nil => exact ⟨s, rfl, by simpa using h, by simp⟩
  | cons data pieces ih =>
    rw [List.flatten_cons, List.length_append] at fits
    have first : m.length + data.length ≤ Config.maxMsgBytes := by omega
    obtain ⟨t, ht, hold, hresp⟩ :=
      ih (s := respond .ok { s with ctx := updateContext s.ctx data }) (m := m ++ data)
        (h.update (h.counted.symm ▸ first)) (by rw [List.length_append]; omega)
    refine ⟨t, (performAll_cons _ (h.exec_update first)).trans ht, ?_, ?_⟩
    · rwa [List.flatten_cons, ← List.append_assoc]
    · rw [hresp, respond_resp, List.append_assoc]; rfl

/-- Settles O40: INIT holds the empty message whatever the state was, the UPDATEs append the pieces, and FINAL
answers with the digest of what is then held. -/
theorem streamedDigest : Obligations.StreamedDigest := by
  intro s pieces fits
  have start : exec .init s = .next (respond .ok { s with ctx := startContext s.ctx }) := rfl
  obtain ⟨u, hu, hold, hresp⟩ :=
    HoldsMessage.performAll_updates (s := respond .ok { s with ctx := startContext s.ctx })
      (holdsMessage_startContext s.ctx) pieces (by simpa using fits)
  refine ⟨respond (.digest (sha256 pieces.flatten)) { u with ctx := finalContext u.ctx }, ?_, rfl, ?_⟩
  · rw [performAll_cons _ start, performAll_append _ hu]
    exact performAll_cons [] hold.exec_final
  · simp [hresp, responseBytes, statusByte, payload]

end Sys2Proof.Machine
end

section
/-! PROOFS. The commands of a stream, one a step (rules R20, R34, R38, R43): the decoder reads back what was
encoded, and a step takes exactly the bytes of its command. -/

namespace Sys2Proof.Machine

/-! ### Reading a command back -/

/-- Once `n` bytes have arrived after LEN = `n`, they are the UPDATE's data, and the bytes after them are left
(R41, R43). -/
theorem decodeUpdate_bytes64_append {n : Nat} {bs : List Byte} (hn : n < 2 ^ 64) (h : n ≤ bs.length) :
    decodeUpdate (bytes64 (BitVec.ofNat 64 n) ++ bs) = .command (.update (bs.take n)) (bs.drop n) := by
  have len : (be64 ((bytes64 (BitVec.ofNat 64 n) ++ bs).take 8)).toNat = n := by
    rw [List.take_left' (bytes64_length _), be64_bytes64, BitVec.toNat_ofNat, Nat.mod_eq_of_lt hn]
  rcases decodeUpdate_cases (bytes64 (BitVec.ofNat 64 n) ++ bs) with ⟨-, short⟩ | ⟨-, hd⟩
  · rw [len, List.length_append, bytes64_length] at short
    omega
  · rw [hd, len, List.drop_left' (bytes64_length _)]

/-- The decoder reads a well-formed command back from its bytes, whatever follows them (R39 to R44). -/
theorem decode_encode_append {i : Instr} (wf : i.WellFormed = true) (rest : List Byte) :
    decode (encode i ++ rest) = .command i rest := by
  cases i with
  | init => rfl
  | final => rfl
  | reserved op =>
    obtain ⟨⟨h1, h2⟩, h3⟩ : (op ≠ 0x01 ∧ op ≠ 0x02) ∧ op ≠ 0x03 := by
      simpa [Instr.WellFormed] using wf
    exact decode_reserved h1 h2 h3 rest
  | update data =>
    have fits : data.length < 2 ^ 64 := of_decide_eq_true wf
    rw [encode, List.append_assoc, List.cons_append, decode_update,
      decodeUpdate_bytes64_append fits (by simp), List.take_left, List.drop_left]

/-! ### One step a command -/

/-- Settles O44: one case of the step. -/
theorem stepPerformsDecodedCommand : Obligations.StepPerformsDecodedCommand :=
  fun _ _ _ => step_of_command

/-- A step from an opcode boundary performs the command whose bytes come next, and leaves what is delivered
after them (R34, R43). -/
theorem step_of_encoded {s : State} {i : Instr} {later : List Input} (wf : i.WellFormed = true)
    (hheld : s.held = []) (hbusy : later.head? ≠ some .resetBusy)
    (hin : s.input = (encode i).map Input.byte ++ later) :
    step s = exec i { s with input := later } := by
  have bytes : s.held ++ leadingBytes s.input = encode i ++ leadingBytes later := by
    rw [hheld, hin, leadingBytes_map_append, List.nil_append]
  have after : afterBytes s.input = afterBytes later := by rw [hin, afterBytes_map_append]
  have split := leadingBytes_append_afterBytes later
  have free : leadingBytes later = [] → ∀ more, afterBytes s.input ≠ .resetBusy :: more := by
    intro hnone more hbusy'
    rw [hnone, ← after, hbusy'] at split
    exact hbusy (split ▸ rfl)
  rw [step_of_command (bytes ▸ decode_encode_append wf _) free, after, split, ← hheld]

/-- Bytes put before the input keep it from beginning with a reset that would abandon a command. -/
theorem head?_map_byte_append {later : List Input} (h : later.head? ≠ some .resetBusy) (bs : List Byte) :
    (bs.map Input.byte ++ later).head? ≠ some .resetBusy := by
  cases bs with
  | nil => exact h
  | cons b bs => exact nofun

theorem stepMany_succ {n : Nat} {s t : State} (h : step s = .next t) :
    stepMany (n + 1) s = stepMany n t := by
  rw [stepMany, h]

/-- Settles O45, by induction on the commands: a step performs the first and leaves the bytes of the others,
which the command has not read. -/
theorem commandsRunInStreamOrder : Obligations.CommandsRunInStreamOrder := by
  intro s cmds later wf hheld hbusy hin
  induction cmds generalizing s with
  | nil =>
    have hin : s.input = later := hin
    rw [← hin]; rfl
  | cons i cmds ih =>
    obtain ⟨hi, hcmds⟩ := List.forall_mem_cons.mp wf
    rw [encodeAll_cons, List.map_append, List.append_assoc] at hin
    have hstep := step_of_encoded hi hheld (head?_map_byte_append hbusy _) hin
    obtain ⟨t, he, hheld', hin'⟩ := exec_next i
      { s with input := (encodeAll cmds).map Input.byte ++ later }
    rw [List.length_cons, stepMany_succ (hstep.trans he), ih t hcmds (hheld'.trans hheld) hin']
    exact (performAll_cons cmds (exec_withInput later he)).symm

end Sys2Proof.Machine
end

section
/-! PROOFS. The pseudo-commands on the command stream: a whole message, INIT, UPDATEs and FINAL, one step a
command (rules R34, R50, R56, R58). -/

namespace Sys2Proof.Machine

/-- Commands leave the decoder and the input (R34). -/
theorem performAll_held_input {cmds : List Instr} {s t : State} (h : performAll cmds s = .next t) :
    t.held = s.held ∧ t.input = s.input := by
  induction cmds generalizing s with
  | nil => cases h; exact ⟨rfl, rfl⟩
  | cons i cmds ih =>
    obtain ⟨u, he, hheld, hinput⟩ := exec_next i s
    rw [performAll_cons _ he] at h
    exact hheld ▸ hinput ▸ ih h

/-- A piece of a message within the bound has a length that LEN can count (R41, R89). -/
theorem wellFormed_update_of_mem {pieces : List (List Byte)}
    (fits : pieces.flatten.length ≤ Config.maxMsgBytes) {data : List Byte} (h : data ∈ pieces) :
    (Instr.update data).WellFormed = true := by
  have small : Config.maxMsgBytes < 2 ^ 64 := by decide
  have part : data.length ≤ pieces.flatten.length := (List.sublist_flatten_of_mem h).length_le
  exact decide_eq_true (by omega)

/-- The commands that hash the pieces of a message: INIT, an UPDATE of each, FINAL (R57). -/
def messageCommands (pieces : List (List Byte)) : List Instr :=
  .init :: (pieces.map Instr.update ++ [.final])

theorem messageCommands_wellFormed {pieces : List (List Byte)}
    (fits : pieces.flatten.length ≤ Config.maxMsgBytes) :
    ∀ i ∈ messageCommands pieces, i.WellFormed = true := by
  intro i hi
  simp only [messageCommands, List.mem_cons, List.mem_append, List.mem_map, List.not_mem_nil,
    or_false] at hi
  rcases hi with rfl | ⟨data, hdata, rfl⟩ | rfl
  · rfl
  · exact wellFormed_update_of_mem fits hdata
  · rfl

/-- The bytes of a whole message on the stream give its digest, one step a command: they are performed in
stream order, as `streamedDigest` says of the commands. -/
theorem stepMany_messageCommands {s : State} {pieces : List (List Byte)} {later : List Input}
    (hheld : s.held = []) (hbusy : later.head? ≠ some .resetBusy)
    (fits : pieces.flatten.length ≤ Config.maxMsgBytes)
    (hin : s.input = (encodeAll (messageCommands pieces)).map Input.byte ++ later) :
    ∃ t : State, stepMany (pieces.length + 2) s = .next t ∧ t.held = [] ∧ t.input = later ∧
      t.resp = s.resp ++
        0x00 :: (List.replicate pieces.length 0x00 ++ 0x01 :: sha256 pieces.flatten) := by
  have count : (messageCommands pieces).length = pieces.length + 2 := by simp [messageCommands]
  have run := commandsRunInStreamOrder s _ later (messageCommands_wellFormed fits) hheld hbusy hin
  obtain ⟨t, ht, -, hresp⟩ := streamedDigest { s with input := later } pieces fits
  obtain ⟨hheld', hinput'⟩ := performAll_held_input ht
  rw [count] at run
  exact ⟨t, run.trans ht, hheld'.trans hheld, hinput', hresp⟩

/-- HASH assembles to the commands of a message in one piece (R50). -/
theorem lineBytes_hash (data : List DataItem) :
    lineBytes (.hash data) = encodeAll (messageCommands [dataBytes data]) := by
  simp [lineBytes, messageCommands]

/-- INIT, UPDATE* and FINAL assemble to the commands of a message, one piece an item (R50). -/
theorem assemble_updateEach (pieces : List (List DataItem)) :
    assemble [.init, .updateEach pieces, .final] =
      encodeAll (messageCommands (pieces.map dataBytes)) := by
  simp [assemble, lineBytes, messageCommands, encodeAll, List.flatMap_map]

/-- Settles O42: HASH is the stream of a message in one piece. -/
theorem hashPseudoCommand : Obligations.HashPseudoCommand := by
  intro s data later hheld hbusy fits hin
  rw [lineBytes_hash] at hin
  simpa using stepMany_messageCommands hheld hbusy (by simpa using fits) hin

/-- Settles O43: INIT, UPDATE* and FINAL are the stream of a message, one piece an item. -/
theorem updateEachPseudoCommand : Obligations.UpdateEachPseudoCommand := by
  intro s pieces later hheld hbusy fits hin
  rw [List.flatMap_def] at fits ⊢
  rw [assemble_updateEach] at hin
  obtain ⟨t, ht, -, hinput, hresp⟩ := stepMany_messageCommands hheld hbusy fits hin
  rw [List.length_map] at ht hresp
  exact ⟨t, ht, hinput, hresp⟩

end Sys2Proof.Machine
end

section
/-! PROOFS. The decoder and the encoder (rules R38 to R45): each reads back what the other writes, the
decoder holds on incomplete commands alone, and it cuts every stream into commands. -/

namespace Sys2Proof

/-- Settles O1: the lemma that a stream's commands are read back by. -/
theorem decodeOfEncode : Obligations.DecodeOfEncode :=
  fun _ rest wf => Machine.decode_encode_append wf rest

/-- Settles O5, by running the decoder. -/
theorem specWordsDecode : Obligations.SpecWordsDecode := by
  unfold Obligations.SpecWordsDecode
  decide

/-! ### What is held -/

/-- UPDATE's operands are held exactly while some are missing (R41, R45). -/
theorem decodeUpdate_eq_hold_iff (body : List Byte) :
    decodeUpdate body = .hold ↔
      body.length < 8 ∨ body.length < 8 + (be64 (body.take 8)).toNat := by
  rcases decodeUpdate_cases body with ⟨hd, short⟩ | ⟨long, hd⟩
  · exact iff_of_true hd short
  · rw [hd]
    exact iff_of_false nofun (by omega)

/-- Settles O3, by the opcode byte: only an UPDATE can be held. -/
theorem decoderHoldsExactlyWhenIncomplete : Obligations.DecoderHoldsExactlyWhenIncomplete := by
  intro bs
  cases bs with
  | nil => exact iff_of_true rfl (.inl rfl)
  | cons op rest =>
    rcases decode_cons_cases op rest with ⟨rfl, hd⟩ | ⟨rfl, hd⟩ | ⟨rfl, hd⟩ | ⟨⟨_, hop, _⟩, hd⟩ <;>
      rw [hd]
    · simp
    · simp
    · rw [decodeUpdate_eq_hold_iff]
      simp only [List.head?_cons, List.length_cons, List.drop_succ_cons, List.drop_zero,
        reduceCtorEq, false_or, true_and]
      omega
    · exact iff_of_false nofun fun h => h.elim nofun fun ⟨h, _⟩ => hop (Option.some.inj h)

/-- The LEN field read back from in front of what follows it (R41). -/
theorem be64_take_bytes64_append (v : BitVec 64) (bs : List Byte) :
    be64 ((bytes64 v ++ bs).take 8) = v := by
  rw [List.take_left' (bytes64_length v), Machine.be64_bytes64]

/-- Settles O6: LEN reads back as `n`, and its `n` bytes have or have not arrived. -/
theorem heldUpdateTakesBytesAsData : Obligations.HeldUpdateTakesBytesAsData := by
  intro n bs hn
  refine ⟨fun few => ?_, fun enough => Machine.decodeUpdate_bytes64_append hn enough⟩
  rw [List.cons_append, decode_update, decodeUpdate_eq_hold_iff, be64_take_bytes64_append,
    BitVec.toNat_ofNat, Nat.mod_eq_of_lt hn, List.length_append, bytes64_length]
  omega

/-! ### What is read as a command -/

/-- Eight bytes are the encoding of the number they are (R9). -/
theorem bytes64_be64_of_length {bs : List Byte} (h : bs.length = 8) : bytes64 (be64 bs) = bs := by
  match bs, h with
  | [_, _, _, _, _, _, _, _], _ => exact Machine.bytes64_be64 ..

/-- UPDATE's operands, once read, are LEN, the data it counts, and what follows (R41). -/
theorem decodeUpdate_eq_command {body rest : List Byte} {i : Instr}
    (h : decodeUpdate body = .command i rest) :
    i.WellFormed = true ∧ 0x02 :: body = encode i ++ rest := by
  rcases decodeUpdate_cases body with ⟨hd, -⟩ | ⟨long, hd⟩ <;> cases h.symm.trans hd
  have count : ((body.drop 8).take (be64 (body.take 8)).toNat).length =
      (be64 (body.take 8)).toNat := by
    rw [List.length_take, List.length_drop]; omega
  have header : (body.take 8).length = 8 := by rw [List.length_take]; omega
  constructor
  · exact decide_eq_true (count.trans_lt (be64 (body.take 8)).isLt)
  · rw [encode, count, BitVec.ofNat_toNat, BitVec.setWidth_eq, bytes64_be64_of_length header]
    simp

/-- Settles O2, by the opcode byte. -/
theorem encodeOfDecode : Obligations.EncodeOfDecode := by
  intro bs i rest h
  cases bs with
  | nil => exact nomatch h
  | cons op body =>
    rcases decode_cons_cases op body with ⟨rfl, hd⟩ | ⟨rfl, hd⟩ | ⟨rfl, hd⟩ | ⟨⟨h1, h2, h3⟩, hd⟩
    · cases h.symm.trans hd
      exact ⟨rfl, rfl⟩
    · cases h.symm.trans hd
      exact ⟨rfl, rfl⟩
    · exact decodeUpdate_eq_command (hd.symm.trans h)
    · cases h.symm.trans hd
      exact ⟨by simpa [Instr.WellFormed] using And.intro (And.intro h1 h2) h3, rfl⟩

/-! ### Whole streams -/

/-- Every command has an opcode byte (R39). -/
theorem encode_length_pos (i : Instr) : 0 < (encode i).length := by
  cases i <;> exact Nat.succ_pos _

/-- With fuel for every byte, the decoder cuts a stream into well-formed commands and a held rest: each
command takes at least one byte (R43). -/
theorem decodeUpTo_spec {fuel : Nat} {bs : List Byte} (enough : bs.length ≤ fuel) :
    (∀ i ∈ (decodeUpTo fuel bs).1, i.WellFormed = true) ∧
    bs = Machine.encodeAll (decodeUpTo fuel bs).1 ++ (decodeUpTo fuel bs).2 ∧
    decode (decodeUpTo fuel bs).2 = .hold := by
  induction fuel generalizing bs with
  | zero =>
    cases List.eq_nil_of_length_eq_zero (Nat.le_zero.mp enough)
    exact ⟨nofun, rfl, rfl⟩
  | succ fuel ih =>
    cases hd : decode bs with
    | hold =>
      rw [decodeUpTo, hd]
      exact ⟨nofun, rfl, hd⟩
    | command i rest =>
      obtain ⟨wf, hbs⟩ := encodeOfDecode bs i rest hd
      have shorter : rest.length ≤ fuel := by
        have := encode_length_pos i
        rw [hbs, List.length_append] at enough
        omega
      obtain ⟨wfs, hrest, held⟩ := ih shorter
      rw [decodeUpTo, hd]
      refine ⟨List.forall_mem_cons.mpr ⟨wf, wfs⟩, ?_, held⟩
      rw [Machine.encodeAll_cons, List.append_assoc, ← hrest, ← hbs]

/-- Settles O4: the length of the stream is fuel enough. -/
theorem everyStreamDecodes : Obligations.EveryStreamDecodes :=
  fun _ => decodeUpTo_spec (Nat.le_refl _)

end Sys2Proof
end

section
/-! PROOFS. The response stream and the held bytes (rules R45 to R48): the statuses can be read off the
stream, every step keeps its responses whole, and what is held is an incomplete command that waits. -/

namespace Sys2Proof.Machine

/-! ### Responses -/

/-- The reader skips as many payload bytes as it was told to (R48). -/
theorem statusBytes_skip (skipped rest : List Byte) :
    statusBytes skipped.length (skipped ++ rest) = statusBytes 0 rest := by
  induction skipped with
  | nil => rfl
  | cons b skipped ih => exact ih

/-- The reader takes the status of a legal response and stands before the next one: the payload is the 32
bytes it skips after a 0x01, and empty after any other status (R46, R48). -/
theorem statusBytes_responseBytes_append {r : Response} (legal : LegalResponse r) (rest : List Byte) :
    statusBytes 0 (responseBytes r ++ rest) = statusByte r :: statusBytes 0 rest := by
  cases r with
  | ok => rfl
  | error e => cases e <;> rfl
  | digest d =>
    have hd : d.length = 32 := legal
    exact congrArg (0x01 :: ·) (hd ▸ statusBytes_skip d rest)

/-- Settles O37, by induction on the responses. -/
theorem statusBytesRecovered : Obligations.StatusBytesRecovered := by
  intro rs legal
  induction rs with
  | nil => rfl
  | cons r rs ih =>
    obtain ⟨hr, hrs⟩ := List.forall_mem_cons.mp legal
    rw [List.flatMap_cons, statusBytes_responseBytes_append hr, ih hrs, List.map_cons]

/-- One more legal response keeps the stream whole. -/
theorem WholeResponses.respond {s : State} (h : WholeResponses s) {r : Response}
    (legal : LegalResponse r) : WholeResponses (respond r s) := by
  obtain ⟨rs, hrs, hresp⟩ := h
  refine ⟨rs ++ [r], ?_, by rw [respond_resp, hresp]; simp⟩
  intro x hx
  rcases List.mem_append.mp hx with hx | hx
  · exact hrs x hx
  · exact List.mem_singleton.mp hx ▸ legal

/-- Settles O55: a wait leaves the stream, a reset empties it, a command adds one legal response. -/
theorem stepKeepsWholeResponses : Obligations.StepKeepsWholeResponses := by
  intro s t h hstep
  have empty (s' : State) : WholeResponses (hardwareReset s') := ⟨[], nofun, rfl⟩
  rcases step_cases s with ⟨-, -, he⟩ | ⟨_, -, -, he⟩ | ⟨_, _, -, -, he⟩ | ⟨i, rest, -, -, he⟩
  · cases hstep.symm.trans he
    exact h
  · cases hstep.symm.trans he
    exact empty _
  · cases hstep.symm.trans he
    exact empty _
  · obtain ⟨c, r, hx, legal, -⟩ := exec_responds i
      { s with held := [], input := rest.map Input.byte ++ afterBytes s.input }
    cases (hstep.symm.trans he).trans hx
    exact WholeResponses.respond h legal

/-! ### Held bytes -/

/-- Settles O54: a wait holds what the decoder holds on, anything else leaves the decoder at an opcode
boundary. -/
theorem stepKeepsHeldIncomplete : Obligations.StepKeepsHeldIncomplete := by
  intro s t _ hstep
  have boundary (h : t.held = []) : HoldsIncomplete t := by rw [HoldsIncomplete, h, decode_nil]
  rcases step_cases s with ⟨hd, -, he⟩ | ⟨_, -, -, he⟩ | ⟨_, _, -, -, he⟩ | ⟨i, rest, -, -, he⟩
  · cases hstep.symm.trans he
    exact hd
  · cases hstep.symm.trans he
    exact boundary rfl
  · cases hstep.symm.trans he
    exact boundary rfl
  · obtain ⟨u, hx, hheld, -⟩ := exec_next i
      { s with held := [], input := rest.map Input.byte ++ afterBytes s.input }
    cases (hstep.symm.trans he).trans hx
    exact boundary hheld

/-- A core that holds an incomplete command stays as it is while nothing is delivered (R45, R101). -/
theorem stepMany_of_idle {s : State} (hd : HoldsIncomplete s) (hin : s.input = []) (n : Nat) :
    stepMany n s = .next s := by
  have bytes : s.held ++ leadingBytes s.input = s.held := by rw [hin]; exact List.append_nil _
  have idle : step s = .next s := by
    rw [step_of_wait (bytes.symm ▸ hd) (by rw [hin]; rfl), bytes, ← hin]
  induction n with
  | zero => rfl
  | succ n ih => rw [stepMany_succ idle, ih]

/-- Settles O46: one step takes the bytes, and the core is then idle. -/
theorem heldCommandWaits : Obligations.HeldCommandWaits := by
  intro s hd ha n
  rw [stepMany_succ (step_of_wait hd ha)]
  exact stepMany_of_idle (s := { s with held := s.held ++ leadingBytes s.input, input := [] }) hd rfl n

/-- A step does not tell the bytes held from the bytes delivered after them: it reads the two as one sequence
(R43, R45). -/
theorem step_congr {s t : State} (hctx : s.ctx = t.ctx) (hresp : s.resp = t.resp)
    (bytes : s.held ++ leadingBytes s.input = t.held ++ leadingBytes t.input)
    (after : afterBytes s.input = afterBytes t.input) : step s = step t := by
  rcases step_cases s with ⟨hd, ha, he⟩ | ⟨more, hd, ha, he⟩ | ⟨i, more, hd, ha, he⟩ |
      ⟨i, rest, hd, ha, he⟩ <;> rw [bytes] at hd <;> rw [after] at ha
  · rw [he, step_of_wait hd ha, bytes, hctx, hresp]
  · exact he.trans (step_of_reset hd ha).symm
  · exact he.trans (step_of_resetBusy hd ha).symm
  · rw [he, step_of_command hd ha, after, hctx, hresp]

/-- Settles O47: the first piece is then held, before the rest, which is delivered. -/
theorem arrivalInPieces : Obligations.ArrivalInPieces := by
  intro s t bs more later hin hd hstep
  have wait := step_of_wait (s := s) (by rwa [hin, leadingBytes_map]) (by rw [hin, afterBytes_map])
  cases hstep.symm.trans wait
  exact step_congr rfl rfl (by simp [hin]) (by simp)

end Sys2Proof.Machine
end

section
/-! PROOFS. INIT, UPDATE and FINAL one at a time (rules R51 to R55): what each answers and leaves from every
state it is legal in, and the table of the lifecycle. -/

namespace Sys2Proof.Machine

/-! ### INIT -/

/-- Settles O23: INIT reads no state, and writes every field that holds a value. -/
theorem initStartsContext : Obligations.InitStartsContext := fun s =>
  ⟨_, _, rfl, rfl, rfl, pendingBytes_startContext s.ctx, rfl, rfl, rfl, rfl, rfl, rfl,
    indistinct_startContext _ _⟩

/-! ### UPDATE -/

/-- Settles O24: an UPDATE that fits succeeds, and its context is the one the ABSORB of each byte leaves. -/
theorem updateAbsorbsBlocks : Obligations.UpdateAbsorbsBlocks := by
  intro s data live fits
  have count : (blocks (pendingBytes s.ctx ++ data)).length = (s.ctx.bufLen.val + data.length) / 64 := by
    rw [blocks_length, List.length_append, pendingBytes_length]
  exact ⟨_, execUpdate_of_fits live fits, updateContext_h_blocks s.ctx data, count,
    pendingBytes_updateContext s.ctx data, updateContext_bufLen_val s.ctx data,
    toNat_updateContext_totalLen fits, rfl, rfl, rfl, rfl⟩

/-- No data: nothing is absorbed and nothing counted (R52). -/
theorem updateContext_nil (c : Context) : updateContext c [] = { c with lifecycle := .updating } := by
  rw [updateContext, absorbAll_nil, List.length_nil, BitVec.add_zero]

/-- Settles O25: no data fits every total within the bound. -/
theorem zeroLengthUpdate : Obligations.ZeroLengthUpdate := by
  intro s live bounded
  have run : exec (.update []) s = .next (respond .ok { s with ctx := updateContext s.ctx [] }) :=
    execUpdate_of_fits live bounded
  rw [run, updateContext_nil]
  rfl

/-! ### FINAL -/

/-- PAD makes one block of a tail that leaves room for 0x80 and the bit count, and else two (R61). -/
theorem pad_length {tail : List Byte} (total : BitVec 64) (h : tail.length ≤ 63) :
    (pad tail total).length = if tail.length ≤ 55 then 1 else 2 := by
  rw [← blocks_padBytes total h, blocks_length, padBytes_length total h]
  split <;> rfl

/-- Settles O26: FINAL succeeds in INIT and UPDATING, and the buffer is a tail that PAD takes. -/
theorem finalPadsAndAnswers : Obligations.FinalPadsAndAnswers := by
  intro s live
  have count := pad_length s.ctx.totalLen (Nat.le_of_lt_succ (pendingBytes_short s.ctx))
  rw [pendingBytes_length] at count
  exact ⟨_, execFinal_of_live live, rfl, count, rfl, rfl, rfl, rfl, rfl, rfl, serialize_length _⟩

/-- Settles O39: the digest of the message held is what FINAL answers with. -/
theorem finalGivesDigestOfMessage : Obligations.FinalGivesDigestOfMessage :=
  fun _ _ h => ⟨_, h.exec_final, rfl, serialize_length _⟩

/-! ### The lifecycle -/

/-- Settles O34, a cell of the table at a time. -/
theorem lifecycleTable : Obligations.LifecycleTable := by
  intro s data op
  refine ⟨⟨_, execInit_eq s, rfl, rfl⟩, execReserved_eq op s, fun uninit => ?_, fun live => ?_,
    fun finalized => ?_⟩
  · exact ⟨execUpdate_of_uninit data uninit, execFinal_of_uninit uninit⟩
  · exact ⟨fun fits => ⟨_, execUpdate_of_fits live fits, rfl, rfl⟩,
      fun long => execUpdate_of_overflow live long,
      _, _, execFinal_of_live live, rfl, serialize_length _, rfl⟩
  · exact ⟨execUpdate_of_finalized data finalized, execFinal_of_finalized finalized⟩

end Sys2Proof.Machine
end

section
/-! PROOFS. Incremental equivalence (rule R56): UPDATEs that report no error absorb pieces that together are
within the bound, and the digest of a message within the bound does not depend on its split. -/

namespace Sys2Proof.Machine

/-- Commands only add to the response stream (R34, R48). -/
theorem performAll_resp {cmds : List Instr} {s t : State} (h : performAll cmds s = .next t) :
    ∃ added : List Byte, t.resp = s.resp ++ added := by
  induction cmds generalizing s with
  | nil => cases h; exact ⟨[], (List.append_nil _).symm⟩
  | cons i cmds ih =>
    obtain ⟨c, r, he, -⟩ := exec_cases i s
    obtain ⟨added, hadded⟩ := ih ((performAll_cons cmds he).symm.trans h)
    exact ⟨responseBytes r ++ added, by rw [hadded, respond_resp, List.append_assoc]⟩

/-- No error is reported in a response and those after it: neither in it nor in them (R47, R48). -/
theorem noErrorIn_responseBytes_append {r : Response} (legal : LegalResponse r) (rest : List Byte) :
    NoErrorIn (responseBytes r ++ rest) ↔ (statusByte r).toNat < 0x80 ∧ NoErrorIn rest := by
  rw [NoErrorIn, statusBytes_responseBytes_append legal, List.forall_mem_cons, NoErrorIn]

/-- `RunsClean cmds s t`: the commands lead from `s` to `t`, and no response they add reports an error. -/
def RunsClean (cmds : List Instr) (s t : State) : Prop :=
  performAll cmds s = .next t ∧ ∃ added : List Byte, t.resp = s.resp ++ added ∧ NoErrorIn added

/-- Where no command reports an error, the first does not, nor do those after it. -/
theorem RunsClean.cons {i : Instr} {cmds : List Instr} {s t : State} {c : Context} {r : Response}
    (h : RunsClean (i :: cmds) s t) (he : exec i s = .next (respond r { s with ctx := c }))
    (legal : LegalResponse r) :
    (statusByte r).toNat < 0x80 ∧ RunsClean cmds (respond r { s with ctx := c }) t := by
  obtain ⟨run, added, hadded, clean⟩ := h
  rw [performAll_cons cmds he] at run
  obtain ⟨later, hlater⟩ := performAll_resp run
  have bytes : added = responseBytes r ++ later := by
    rw [hlater, respond_resp, List.append_assoc] at hadded
    exact (List.append_cancel_left hadded).symm
  rw [bytes, noErrorIn_responseBytes_append legal] at clean
  exact ⟨clean.1, run, later, hlater, clean.2⟩

/-- UPDATEs that report no error fit, all together, the message held: one that did not would have answered
LENGTH_OVERFLOW (R52, R89). -/
theorem RunsClean.pieces_fit {pieces : List (List Byte)} {more : List Instr} {s t : State} {m : List Byte}
    (h : RunsClean (pieces.map Instr.update ++ more) s t) (hold : HoldsMessage m s.ctx) :
    m.length + pieces.flatten.length ≤ Config.maxMsgBytes := by
  induction pieces generalizing s m with
  | nil => exact hold.bounded
  | cons data pieces ih =>
    by_cases first : m.length + data.length ≤ Config.maxMsgBytes
    · have rest := (h.cons (hold.exec_update first) trivial).2
      have fit := ih rest (hold.update (hold.counted.symm ▸ first))
      rwa [List.length_append, Nat.add_assoc, ← List.length_append, ← List.flatten_cons] at fit
    · have long : Config.maxMsgBytes < s.ctx.totalLen.toNat + data.length := by
        rw [hold.counted]; omega
      exact absurd (h.cons (execUpdate_of_overflow hold.live long) trivial).1 (by decide)

/-- Settles O41: INIT holds the empty message, so the pieces fit and so does the whole; both runs then answer
with the digest of the whole. -/
theorem incrementalEquivalence : Obligations.IncrementalEquivalence := by
  intro s t pieces r _ run hr clean
  have updates := (RunsClean.cons ⟨run, r, hr, clean⟩ (execInit_eq s) trivial).2
  have fits : pieces.flatten.length ≤ Config.maxMsgBytes := by
    simpa using updates.pieces_fit (holdsMessage_startContext s.ctx)
  obtain ⟨t', run', -, hresp⟩ := streamedDigest s pieces fits
  obtain ⟨u, whole, -, hwhole⟩ := streamedDigest s [pieces.flatten] (by simpa using fits)
  cases run.symm.trans run'
  refine ⟨u, sha256 pieces.flatten, serialize_length _, whole, by simpa using hwhole, ?_⟩
  exact List.append_cancel_left (hr.symm.trans hresp)

end Sys2Proof.Machine
end

section
/-! PROOFS. The padding/finalizer PAD (rules R59 to R65): its zero fill, its one or two blocks written out,
and the padded message cut into blocks. -/

namespace Sys2Proof.Machine

/-! ### The zero fill -/

/-- The zero fill leaves room for just the bit count in the last block, after any number of bytes (R60). -/
theorem zeroFill_reaches (l : Nat) : (l + 1 + zeroFill l) % 64 = 56 := by
  unfold zeroFill; omega

/-- No smaller count of zero bytes does (R60). -/
theorem zeroFill_least {l z : Nat} (h : (l + 1 + z) % 64 = 56) : zeroFill l ≤ z := by
  unfold zeroFill; omega

theorem zeroFill_le_63 (l : Nat) : zeroFill l ≤ 63 := by
  unfold zeroFill; omega

/-- Settles O17, a clause for each property of the zero fill and for each of its two formulas. -/
theorem padZeroFill : Obligations.PadZeroFill := fun l hl =>
  ⟨zeroFill_reaches l, fun _ => zeroFill_least, zeroFill_of_le, fun long => zeroFill_of_gt long hl,
    zeroFill_le_63 l, rfl, rfl⟩

/-! ### The blocks of PAD -/

theorem blocks_of_block {b : List Byte} (h : b.length = 64) : blocks b = [b] := by
  simpa [blocks_of_short] using blocks_block_append b [] h

/-- A tail up to 55 bytes leaves room for 0x80 and the bit count: one block (R61). -/
theorem pad_of_le {tail : List Byte} (total : BitVec 64) (h : tail.length ≤ 55) :
    pad tail total = [padBytes tail total] := by
  have hlen : (padBytes tail total).length = 64 := by rw [padBytes_length total (by omega), if_pos h]
  rw [← blocks_padBytes total (by omega), blocks_of_block hlen]

/-- The zero fill after a longer tail fills the block up and then the next one to its last 8 bytes (R61). -/
theorem padBytes_of_gt {tail : List Byte} (total : BitVec 64) (h : 55 < tail.length)
    (h' : tail.length ≤ 63) :
    padBytes tail total = (tail ++ [0x80] ++ List.replicate (63 - tail.length) 0x00) ++
      (List.replicate 56 0x00 ++ bytes64 (total * 8)) := by
  have fill : zeroFill tail.length = (63 - tail.length) + 56 := by rw [zeroFill_of_gt h h']; omega
  rw [padBytes, fill, List.replicate_add]
  simp only [List.append_assoc]

/-- A tail of 56 to 63 bytes takes two blocks (R61). -/
theorem pad_of_gt {tail : List Byte} (total : BitVec 64) (h : 55 < tail.length) (h' : tail.length ≤ 63) :
    pad tail total = [tail ++ [0x80] ++ List.replicate (63 - tail.length) 0x00,
      List.replicate 56 0x00 ++ bytes64 (total * 8)] := by
  have first : (tail ++ [0x80] ++ List.replicate (63 - tail.length) (0x00 : Byte)).length = 64 := by
    rw [List.length_append, List.length_append, List.length_replicate, List.length_singleton]; omega
  rw [← blocks_padBytes total h', padBytes_of_gt total h h', blocks_block_append _ _ first,
    blocks_of_block rfl]

/-- PAD only cuts the padded tail into blocks (R59). -/
theorem flatten_pad {tail : List Byte} (total : BitVec 64) (h : tail.length ≤ 63) :
    (pad tail total).flatten = padBytes tail total := by
  by_cases one : tail.length ≤ 55
  · rw [pad_of_le total one, List.flatten_singleton]
  · have two : 55 < tail.length := by omega
    rw [pad_of_gt total two h, padBytes_of_gt total two h, List.flatten_cons, List.flatten_singleton]

/-- Settles O18, with the two blocks of a long tail written out by `pad_of_gt`. -/
theorem padLayout : Obligations.PadLayout := fun _ total h =>
  ⟨fun _ => length_of_mem_pad h, pad_length total h, flatten_pad total h,
    fun long => pad_of_gt total long h⟩

/-! ### The bit count -/

/-- The last block is 56 bytes and then the bit count, in the one-block and in the two-block case (R62). -/
theorem exists_getLast?_pad {tail : List Byte} (total : BitVec 64) (h : tail.length ≤ 63) :
    ∃ start : List Byte, start.length = 56 ∧
      (pad tail total).getLast? = some (start ++ bytes64 (total * 8)) := by
  by_cases one : tail.length ≤ 55
  · refine ⟨tail ++ [0x80] ++ List.replicate (zeroFill tail.length) 0x00, ?_, ?_⟩
    · rw [zeroFill_of_le one, List.length_append, List.length_append, List.length_replicate,
        List.length_singleton]
      omega
    · rw [pad_of_le total one]; rfl
  · refine ⟨List.replicate 56 0x00, List.length_replicate, ?_⟩
    rw [pad_of_gt total (by omega) h]; rfl

/-- Settles O19: the bit count ends the last block, and 8 times the bound is still below 2^64. -/
theorem padLengthSuffix : Obligations.PadLengthSuffix := by
  intro tail total h bounded
  have bits : total.toNat * 8 ≤ 2 ^ 64 - 8 := by unfold Config.maxMsgBytes at bounded; omega
  obtain ⟨start, hstart, last⟩ := exists_getLast?_pad total h
  refine ⟨⟨_, last, List.drop_left' hstart⟩, ?_, bits⟩
  exact BitVec.toNat_mul_of_lt (show total.toNat * 8 < 2 ^ 64 by omega)

/-! ### An empty tail -/

/-- The buffer holds as many bytes as the message has after its full blocks (R26, R65). -/
theorem HoldsMessage.bufLen_val {m : List Byte} {c : Context} (h : HoldsMessage m c) :
    c.bufLen.val = m.length % 64 := by
  rw [← pendingBytes_length, h.pending, messageTail_length]

/-- Settles O20: the tail is the bytes of the buffer, and one with no byte fits one block. -/
theorem padEmptyTail : Obligations.PadEmptyTail := by
  refine ⟨fun s empty => ?_, fun s m hold => ?_⟩
  · rw [pendingBytes_of_empty empty, pad_of_le (tail := []) _ (Nat.zero_le 55)]
    rfl
  · rw [← hold.bufLen_val, Fin.ext_iff, Fin.val_zero]

/-! ### The padded message -/

theorem padding_length (l : Nat) : (padding l).length = 1 + zeroFill l + 8 := by
  rw [padding, List.length_append, List.length_append, List.length_replicate, bytes64_length,
    List.length_singleton]

/-- Settles O21: the zero fill reaches 56 bytes of a block, and the bit count is the 8 bytes left. -/
theorem paddedMessageBlocks : Obligations.PaddedMessageBlocks := by
  intro m
  have fill := zeroFill_reaches m.length
  refine ⟨?_, blocks_append_padding m⟩
  rw [List.length_append, padding_length]
  omega

end Sys2Proof.Machine
end

section
/-! PROOFS. The compression function (rules R66 to R79): its constants and bit functions, the words of the
message schedule by place, the rounds one at a time, and the known answers. -/

namespace Sys2Proof.Machine

/-! ### The message schedule -/

/-- A message word is BE32 of the four bytes at its place in the block (R74). -/
theorem messageWord_eq {block : List Byte} {j : Nat} (h : 4 * j + 3 < block.length) :
    messageWord block j = be32 block[4 * j] block[4 * j + 1] block[4 * j + 2] block[4 * j + 3] := by
  rw [messageWord, List.getD_eq_getElem _ _ h, List.getD_eq_getElem _ _ (by omega),
    List.getD_eq_getElem _ _ (by omega), List.getD_eq_getElem _ _ (by omega)]

/-- Four entries of a list in a row, as a list. -/
theorem take_four_drop {α : Type} {l : List α} {i : Nat} (h : i + 3 < l.length) :
    (l.drop i).take 4 = [l[i], l[i + 1], l[i + 2], l[i + 3]] := by
  rw [List.drop_eq_getElem_cons (by omega), List.drop_eq_getElem_cons (by omega),
    List.drop_eq_getElem_cons (by omega), List.drop_eq_getElem_cons h]
  rfl

@[simp] theorem expandSchedule_length (n : Nat) (w : List Word) :
    (expandSchedule n w).length = w.length + n := by
  induction n generalizing w with
  | zero => rfl
  | succ n ih => rw [expandSchedule, ih, List.length_append, List.length_singleton]; omega

/-- Expansion writes no word again. -/
theorem isPrefix_expandSchedule (n : Nat) (w : List Word) : w <+: expandSchedule n w := by
  induction n generalizing w with
  | zero => exact List.prefix_rfl
  | succ n ih => exact (List.prefix_append w _).trans (ih _)

/-- Each new word follows from the words before it alone (R75). -/
theorem getElem?_expandSchedule {n t : Nat} {w : List Word} (h : w.length ≤ t) (h' : t < w.length + n) :
    (expandSchedule n w)[t]? = some (nextScheduleWord ((expandSchedule n w).take t)) := by
  induction n generalizing w with
  | zero => omega
  | succ n ih =>
    rw [expandSchedule]
    by_cases first : t = w.length
    · subst first
      have grown := isPrefix_expandSchedule n (w ++ [nextScheduleWord w])
      have old : (expandSchedule n (w ++ [nextScheduleWord w])).take w.length = w :=
        (List.prefix_iff_eq_take.mp ((List.prefix_append w _).trans grown)).symm
      rw [old]
      simpa using List.prefix_iff_getElem?.mp grown w.length (by simp)
    · have len : (w ++ [nextScheduleWord w]).length = w.length + 1 := by simp
      exact ih (by omega) (by omega)

/-- The word that follows the first `t` words of a list, by the four it reads (R75). -/
theorem nextScheduleWord_take {l : List Word} {t : Nat} (h : 16 ≤ t) (h' : t ≤ l.length) :
    nextScheduleWord (l.take t) = ssig1 l[t - 2] + l[t - 7] + ssig0 l[t - 15] + l[t - 16] := by
  have entry {k : Nat} (hk : 0 < k) (hk' : k ≤ t) : (l.take t).getD (t - k) 0 = l[t - k] := by
    rw [List.getD_eq_getElem _ _ (by rw [List.length_take]; omega), List.getElem_take]
  simp only [nextScheduleWord, List.length_take_of_le h']
  rw [entry (by omega) (by omega), entry (by omega) (by omega), entry (by omega) (by omega),
    entry (by omega) h]

@[simp] theorem schedule_length (block : List Byte) : (schedule block).length = 64 := by
  simp [schedule]

theorem getElem?_schedule_of_lt (block : List Byte) {j : Nat} (h : j < 16) :
    (schedule block)[j]? = some (messageWord block j) := by
  have kept := List.prefix_iff_getElem?.mp
    (isPrefix_expandSchedule 48 ((List.range 16).map (messageWord block))) j (by simpa using h)
  simpa [schedule] using kept

theorem getElem?_schedule_of_ge (block : List Byte) {t : Nat} (h : 16 ≤ t) (h' : t < 64) :
    (schedule block)[t]? = some (nextScheduleWord ((schedule block).take t)) :=
  getElem?_expandSchedule (by simpa using h) (by simpa using h')

/-- Settles O13: the first words stay as they were written, and each later one is read off the words it
follows. -/
theorem messageSchedule : Obligations.MessageSchedule := by
  intro block hb
  refine ⟨schedule_length block, fun j hj => ?_, fun t ht ht' => ?_⟩
  · have inside : 4 * j + 3 < block.length := by omega
    exact ⟨_, _, _, _, take_four_drop inside,
      by rw [getElem?_schedule_of_lt block hj, messageWord_eq inside]⟩
  · have len := schedule_length block
    refine ⟨_, _, _, _, List.getElem?_eq_getElem (by omega), List.getElem?_eq_getElem (by omega),
      List.getElem?_eq_getElem (by omega), List.getElem?_eq_getElem (by omega), ?_⟩
    rw [getElem?_schedule_of_ge block ht ht', nextScheduleWord_take ht (by omega)]

/-! ### The bit functions -/

/-- Settles O10: the formulas are the definitions, and the examples are evaluated. -/
theorem sigmaFunctions : Obligations.SigmaFunctions :=
  ⟨fun _ => rfl, fun _ => rfl, fun _ => rfl, fun _ => rfl, by decide⟩

/-- Each bit of `e` chooses the bit of `f` or of `g` (R72). -/
theorem getLsbD_ch (e f g : Word) {i : Nat} (hi : i < 32) :
    (ch e f g).getLsbD i = if e.getLsbD i then f.getLsbD i else g.getLsbD i := by
  rw [ch, BitVec.getLsbD_xor, BitVec.getLsbD_and, BitVec.getLsbD_and, BitVec.getLsbD_not]
  cases e.getLsbD i <;> simp [hi]

/-- A bit of Maj is Maj of the three bits. -/
theorem getLsbD_maj (a b c : Word) (i : Nat) : (maj a b c).getLsbD i =
    ((a.getLsbD i && b.getLsbD i) ^^ (a.getLsbD i && c.getLsbD i) ^^ (b.getLsbD i && c.getLsbD i)) := by
  simp only [maj, BitVec.getLsbD_xor, BitVec.getLsbD_and]

/-- On three bits, Maj is 1 where at least two of them are (R73). -/
theorem majority_bits : ∀ a b c : Bool,
    ((a && b) ^^ (a && c) ^^ (b && c)) = true ↔ 2 ≤ a.toNat + b.toNat + c.toNat := by decide

/-- Settles O11, bit by bit. -/
theorem chooseAndMajority : Obligations.ChooseAndMajority :=
  ⟨fun _ _ _ => rfl, fun e f g _ hi => getLsbD_ch e f g hi, fun _ _ _ => rfl,
    fun a b c i _ => by rw [getLsbD_maj]; exact majority_bits _ _ _, by decide⟩

/-! ### The constants -/

theorem primesBelow_312 : primesBelow 312 =
    [2, 3, 5, 7, 11, 13, 17, 19, 23, 29, 31, 37, 41, 43, 47, 53, 59, 61, 67, 71, 73, 79, 83, 89, 97, 101,
     103, 107, 109, 113, 127, 131, 137, 139, 149, 151, 157, 163, 167, 173, 179, 181, 191, 193, 197, 199,
     211, 223, 227, 229, 233, 239, 241, 251, 257, 263, 269, 271, 277, 281, 283, 293, 307, 311] := by
  decide +kernel

/-- IV is the low words of the square roots of the first primes, scaled by 2^32 and rounded down (R66). -/
theorem iv_eq_root : ∀ i : Fin 8,
    iv[i] = BitVec.ofNat 32 (Nat.nthRoot 2 ((primesBelow 312).getD i 0 * 2 ^ 64)) := by
  rw [primesBelow_312]
  decide +kernel

/-- K is the low words of the cube roots of the first primes, scaled by 2^32 and rounded down (R67). -/
theorem roundConstant_eq_root : ∀ t : Fin 64,
    roundConstant t = BitVec.ofNat 32 (Nat.nthRoot 3 ((primesBelow 312).getD t 0 * 2 ^ 96)) := by
  rw [primesBelow_312]
  decide +kernel

/-- Settles O12 with the integer roots of Mathlib, which its lemmas bound from both sides. -/
theorem constantsAreRootFractions : Obligations.ConstantsAreRootFractions :=
  ⟨by rw [primesBelow_312]; rfl,
    fun i => ⟨_, Nat.pow_nthRoot_le_iff.mpr (.inl two_ne_zero), Nat.lt_pow_nthRoot_add_one two_ne_zero _,
      iv_eq_root i⟩,
    fun t => ⟨_, Nat.pow_nthRoot_le_iff.mpr (.inl three_ne_zero),
      Nat.lt_pow_nthRoot_add_one three_ne_zero _, roundConstant_eq_root t⟩⟩

/-! ### The rounds -/

@[simp] theorem rounds_zero (w : List Word) (v : Vars) : rounds w 0 v = v := rfl

/-- One more round comes after the others, with the next constant and schedule word (R77). -/
theorem rounds_succ (w : List Word) (n : Nat) (v : Vars) :
    rounds w (n + 1) v = round (rounds w n v) (roundConstant n) (w.getD n 0) := by
  rw [rounds, List.range_succ, List.foldl_concat, rounds]

/-- V-CMP-3: round 0 of the block of "abc". -/
theorem rounds_one_abc :
    rounds (schedule ([0x61, 0x62, 0x63, 0x80] ++ List.replicate 59 0 ++ [0x18])) 1 (initVars iv) =
      ⟨0x5d6aebcd, 0x6a09e667, 0xbb67ae85, 0x3c6ef372, 0xfa2a4622, 0x510e527f, 0x9b05688c, 0x1f83d9ab⟩ := by
  decide +kernel

/-- Settles O14: the round is the definition, and the rounds are unfolded from the last one. -/
theorem roundsInOrder : Obligations.RoundsInOrder :=
  ⟨fun _ _ _ _ _ _ _ _ _ _ => rfl, rounds_zero,
    fun w t v x _ hx => by rw [rounds_succ, List.getD_eq_getElem?_getD, hx, Option.getD_some],
    rounds_one_abc⟩

/-- Settles O15: the working variables after round 63 are those COMPRESS adds back. -/
theorem compressFeedsForward : Obligations.CompressFeedsForward :=
  fun _ _ _ => ⟨_, rfl, rfl⟩

/-! ### Known answers -/

/-- V-CMP-4: COMPRESS of the one padded block of "abc". -/
theorem compress_iv_abc :
    compress iv ([0x61, 0x62, 0x63, 0x80] ++ List.replicate 59 0 ++ [0x18]) =
      #v[0xba7816bf, 0x8f01cfea, 0x414140de, 0x5dae2223, 0xb00361a3, 0x96177a9c, 0xb410ff61, 0xf20015ad] := by
  decide +kernel

/-- A message of at most 55 bytes is padded to one block (R58, R61). -/
theorem sha256_of_le_55 {m : List Byte} (h : m.length ≤ 55) :
    sha256 m = serialize (compress iv (m ++ padding m.length)) := by
  have block : (m ++ padding m.length).length = 64 := by
    rw [List.length_append, padding_length, zeroFill_of_le h]; omega
  rw [sha256, blocks_of_block block]
  rfl

/-- Settles O16: the two compressions and the digest of two blocks are evaluated; "abc" and the empty message
are one block each. -/
theorem knownAnswers : Obligations.KnownAnswers := by
  refine ⟨compress_iv_abc, by decide +kernel, ?_, by decide +kernel, ?_⟩
  · rw [sha256_of_le_55 (by decide), ← compress_iv_abc]
    rfl
  · rw [sha256_of_le_55 (by decide)]
    decide +kernel

end Sys2Proof.Machine
end

section
/-! PROOFS. The digest state serializer (rules R28, R81): it lists the bytes of the words in order, so that byte
`j` of word `i` stands at place `4 * i + j`. -/

namespace Sys2Proof.Machine

theorem bytes32_getElem? (w : Word) (j : Fin 4) :
    (bytes32 w)[j.val]? = some (w.extractLsb' (24 - 8 * j.val) 8) := by
  match j with
  | 0 | 1 | 2 | 3 => rfl

/-- Each word takes four places, so those of word `i` begin at `4 * i`. -/
theorem flatMap_bytes32_getElem? (ws : List Word) (i : Nat) (j : Fin 4) :
    (ws.flatMap bytes32)[4 * i + j.val]? =
      ws[i]?.map fun w => w.extractLsb' (24 - 8 * j.val) 8 := by
  induction ws generalizing i with
  | nil => rfl
  | cons w ws ih =>
    rw [List.flatMap_cons]
    cases i with
    | zero =>
      rw [Nat.mul_zero, Nat.zero_add, List.getElem?_append_left (by simp), bytes32_getElem?]
      rfl
    | succ i =>
      have place : 4 * (i + 1) + j.val = (bytes32 w).length + (4 * i + j.val) := by
        rw [bytes32_length]; omega
      rw [place, List.getElem?_append_right (Nat.le_add_right _ _), Nat.add_sub_cancel_left, ih,
        List.getElem?_cons_succ]

theorem serialize_eq_flatMap : ∀ h : Vector Word 8, serialize h = h.toList.flatMap bytes32
  | ⟨⟨[_, _, _, _, _, _, _, _]⟩, _⟩ => rfl

/-- Settles O22: the digest is the words' bytes one after another, so the place of a byte gives its word and its
place in the word; the example is evaluated. -/
theorem serializeBytes : Obligations.SerializeBytes := by
  refine ⟨fun h => ⟨serialize_length h, fun i j => ?_⟩, by decide⟩
  rw [serialize_eq_flatMap, flatMap_bytes32_getElem?, Vector.getElem?_toList,
    Vector.getElem?_eq_getElem i.isLt]
  rfl

end Sys2Proof.Machine
end

section
/-! PROOFS. The error responses (rules R83 to R93): what each misuse answers, in which order, and that an
error leaves everything but the response stream and the bytes of its command; and that no step fails. -/

namespace Sys2Proof.Machine

/-! ### From an opcode boundary -/

theorem wellFormed_update {data : List Byte} (short : data.length < 2 ^ 64) :
    (Instr.update data).WellFormed = true := decide_eq_true short

theorem wellFormed_reserved {op : Byte} (h1 : op ≠ 0x01) (h2 : op ≠ 0x02) (h3 : op ≠ 0x03) :
    (Instr.reserved op).WellFormed = true := by
  rw [Instr.WellFormed, bne_iff_ne.mpr h1, bne_iff_ne.mpr h2, bne_iff_ne.mpr h3]
  rfl

/-- A step whose next command answers an error takes that command's bytes and adds the response (R90). -/
theorem step_of_encoded_error {s : State} {i : Instr} {e : ErrorCode} {later : List Input}
    (wf : i.WellFormed = true) (hheld : s.held = []) (hbusy : later.head? ≠ some .resetBusy)
    (he : exec i { s with input := later } = .next (respond (.error e) { s with input := later })) :
    step { s with input := (encode i).map Input.byte ++ later } =
      .next (respond (.error e) { s with input := later }) :=
  (step_of_encoded (s := { s with input := (encode i).map Input.byte ++ later }) wf hheld hbusy rfl).trans
    he

/-- Settles O27: in UNINIT both commands answer NOT_INITIALIZED. -/
theorem notInitialized : Obligations.NotInitialized := by
  intro s later uninit hheld hbusy
  refine ⟨fun data short => ?_, ?_⟩
  · exact step_of_encoded_error (wellFormed_update short) hheld hbusy (execUpdate_of_uninit data uninit)
  · exact step_of_encoded_error (i := .final) rfl hheld hbusy (execFinal_of_uninit uninit)

/-- Settles O28: the UPDATE leaves the context, which is still FINALIZED when FINAL comes. -/
theorem updateAfterFinal : Obligations.UpdateAfterFinal := by
  intro s data later finalized hheld hbusy short
  refine ⟨step_of_encoded_error (wellFormed_update short) hheld hbusy
    (execUpdate_of_finalized data finalized), ?_⟩
  have after : exec .final { s with input := later, resp := s.resp ++ [0x82] } =
      .next { s with input := later, resp := s.resp ++ [0x82] ++ [0x83] } :=
    execFinal_of_finalized finalized
  rwa [List.append_assoc] at after

/-- Settles O29: one case of FINAL, which answers before it pads or writes anything. -/
theorem finalAfterFinal : Obligations.FinalAfterFinal := fun _ => execFinal_of_finalized

/-- Settles O30: a reserved opcode byte is the whole command, and its meaning reads no state. -/
theorem illegalCommand : Obligations.IllegalCommand := by
  intro s op later h1 h2 h3 hheld hbusy
  exact ⟨step_of_encoded_error (wellFormed_reserved h1 h2 h3) hheld hbusy (execReserved_eq op _),
    execReserved_eq op s⟩

/-! ### The length bound -/

/-- The bit count of a total within the bound fits 64 bits (R18, R62). -/
theorem toNat_mul_eight {total : BitVec 64} (h : total.toNat ≤ Config.maxMsgBytes) :
    (total * 8).toNat = total.toNat * 8 := by
  have fits : total.toNat * 8 < 2 ^ 64 := by rw [Config.maxMsgBytes] at h; omega
  rw [BitVec.toNat_mul]
  exact Nat.mod_eq_of_lt fits

/-- The bit count of one byte more than the bound wraps to 0 (R18, R89). -/
theorem toNat_mul_eight_past_bound {total : BitVec 64} (h : total.toNat = Config.maxMsgBytes + 1) :
    (total * 8).toNat = 0 := by
  rw [BitVec.toNat_mul, h]
  rfl

/-- Settles O31: the refused UPDATE leaves the context, so it holds the message it held. -/
theorem lengthOverflow : Obligations.LengthOverflow := by
  refine ⟨fun _ => toNat_mul_eight, fun total h => ?_, ?_⟩
  · rw [toNat_mul_eight_past_bound h, h]
    decide
  rintro s t data later live long short hheld hbusy rfl
  refine ⟨?refused, fun m more hold fits => ?update, fun m hold => ?final⟩
  case refused =>
    exact step_of_encoded_error (wellFormed_update short) hheld hbusy (execUpdate_of_overflow live long)
  case update =>
    exact updateExtendsMessage { s with input := later, resp := s.resp ++ [0x85] } m more hold fits
  case final =>
    obtain ⟨u, hu, hresp, -⟩ :=
      finalGivesDigestOfMessage { s with input := later, resp := s.resp ++ [0x85] } m hold
    exact ⟨u, hu, hresp⟩

/-! ### The order of the errors -/

/-- The four lifecycle values: what is neither UNINIT nor FINALIZED takes UPDATE and FINAL (R17). -/
theorem live_of_ne {c : Context} (hu : c.lifecycle ≠ .uninit) (hf : c.lifecycle ≠ .finalized) :
    Live c := by
  cases h : c.lifecycle with
  | uninit => exact absurd h hu
  | init => exact .inl h
  | updating => exact .inr h
  | finalized => exact absurd h hf

/-- Settles O32: FINALIZED is checked before the length, so the example's 2^62 bytes are not looked at. -/
theorem errorPriority : Obligations.ErrorPriority := by
  intro s data op
  refine ⟨execReserved_eq op s, fun uninit => ?_, fun finalized => ?_, fun hu hf long => ?_,
    fun finalized _ => execUpdate_of_finalized data finalized⟩
  · exact ⟨execUpdate_of_uninit data uninit, execFinal_of_uninit uninit⟩
  · exact ⟨execUpdate_of_finalized data finalized, execFinal_of_finalized finalized⟩
  · exact execUpdate_of_overflow (live_of_ne hu hf) long

/-! ### Every step -/

/-- Settles O33: a wait and a reset add no response, and a command that answers an error leaves the
context. -/
theorem errorsChangeNothing : Obligations.ErrorsChangeNothing := by
  intro s t e h herr
  rcases step_cases s with ⟨-, -, he⟩ | ⟨_, -, -, he⟩ | ⟨_, _, -, -, he⟩ | ⟨i, rest, hd, -, he⟩
  · cases h.symm.trans he
    simp at herr
  · cases h.symm.trans he
    simp at herr
  · cases h.symm.trans he
    simp at herr
  · obtain ⟨c, r, hx, -⟩ := exec_cases i
      { s with held := [], input := rest.map Input.byte ++ afterBytes s.input }
    cases (h.symm.trans he).trans hx
    obtain rfl : c = s.ctx := exec_ctx_of_error hx herr
    exact ⟨i, rest, hd, rfl⟩

/-- Settles O52: a wait and a reset are next states, and every command is performed to its end. -/
theorem everyStepAnswersNext : Obligations.EveryStepAnswersNext := by
  intro s
  rcases step_cases s with ⟨-, -, he⟩ | ⟨_, -, -, he⟩ | ⟨_, _, -, -, he⟩ | ⟨i, rest, -, -, he⟩
  · exact ⟨_, he⟩
  · exact ⟨_, he⟩
  · exact ⟨_, he⟩
  · obtain ⟨t, ht, -⟩ := exec_next i _
    exact ⟨t, he.trans ht⟩

end Sys2Proof.Machine
end

section
/-! PROOFS. Reset (rules R98, R99, R101): the state it leaves, what it abandons, and that the invariants hold
from there. -/

namespace Sys2Proof.Machine

/-- A reset leaves the reset state; only what is delivered after it is kept (R98, R99). -/
theorem hardwareReset_eq (s : State) : hardwareReset s = { State.reset with input := s.input } := rfl

/-- Settles O48: whichever reset ends a wait, and one that lands in a performed command, is `hardwareReset`. -/
theorem resetAbandonsTheCommand : Obligations.ResetAbandonsTheCommand := by
  refine fun s more => ⟨fun hd ha => ?_, fun i hd ha => ?_⟩
  · rw [step_of_reset hd ha, hardwareReset_eq]
  · rw [step_of_resetBusy hd ha, hardwareReset_eq]

/-- The decoder is at an opcode boundary after a reset (R98). -/
theorem holdsIncomplete_reset : HoldsIncomplete State.reset := decode_nil

/-- The response stream is empty after a reset (R98). -/
theorem wholeResponses_reset : WholeResponses State.reset := ⟨[], nofun, rfl⟩

/-- Settles O49: with no byte held and none delivered the decoder holds, so the step is the wait. -/
theorem resetState : Obligations.ResetState :=
  ⟨rfl, rfl, rfl, step_of_wait holdsIncomplete_reset rfl⟩

/-- Settles O57: in UNINIT the context's invariants ask nothing; no byte is held and no response is pending. -/
theorem resetMeetsInvariants : Obligations.ResetMeetsInvariants :=
  ⟨countersAgree_of_uninit rfl, holdsIncomplete_reset, wholeResponses_reset, standsForMessage_of_uninit rfl⟩

end Sys2Proof.Machine
end
